-- ==== Sys2Proof/Word.lean ====
section
/-! DEFINITION. The widths of the block (spec/00_scope.md R6, R9): every value is an unsigned integer of a stated width. -/

namespace Sys2Proof

/-- 8 bits: a memory cell, a general register, a timer (R21, R28, R29, R32). -/
abbrev Byte := BitVec 8

/-- 16 bits: I, PC, a stack entry, an opcode (R24, R25, R26, R70). -/
abbrev Word := BitVec 16

/-- 12 bits: the `nnn` operand (R12, R72). -/
abbrev Addr := BitVec 12

/-- The number of a general register, a 4-bit field (R21). -/
abbrev Reg := Fin 16

/-- VF, the register that arithmetic and draw instructions also use as a flag (R23). -/
abbrev VF : Reg := 15

end Sys2Proof
end

