-- ==== Sys2Proof/Machine/Flags.lean ====
section
/-! DEFINITION. The results of the 8-bit ALU and the values it puts in VF (spec/42_load_alu.md R136-R142). -/

namespace Sys2Proof.Machine

/-- A flag value: 0x01 or 0x00. -/
def flagByte (b : Bool) : Byte := if b then 0x01 else 0x00

/-- `trunc_8(a + b)` (R131, R136, R142). -/
def sum8 (a b : Byte) : Byte := BitVec.ofNat 8 (a.toNat + b.toNat)

/-- `trunc_8(a - b + 256)` (R137, R139, R142). -/
def diff8 (a b : Byte) : Byte := BitVec.ofNat 8 (a.toNat + 256 - b.toNat)

/-- `a >> 1` (R138). -/
def half8 (a : Byte) : Byte := BitVec.ofNat 8 (a.toNat / 2)

/-- `trunc_8(a << 1)` (R140). -/
def double8 (a : Byte) : Byte := BitVec.ofNat 8 (2 * a.toNat)

/-- Carry out of bit 7: the exact sum passes 0xFF (R136). -/
def carryFlag (a b : Byte) : Byte := flagByte (decide (a.toNat + b.toNat > 0xFF))

/-- 1 when `a - b` needs no borrow, that is, `a >= b` (R137, R139). -/
def noBorrowFlag (a b : Byte) : Byte := flagByte (decide (a.toNat ≥ b.toNat))

/-- `a[0]`, the bit a right shift drops (R138). -/
def lowBitFlag (a : Byte) : Byte := flagByte (a.getLsbD 0)

/-- `a[7]`, the bit a left shift drops (R140). -/
def highBitFlag (a : Byte) : Byte := flagByte (a.getLsbD 7)

end Sys2Proof.Machine
end

