-- ==== Sys2Proof/Syntax.lean ====
section
/-! DEFINITION. The instructions: one constructor per row of spec/opcode_table.json (30_encoding.md R74), with the
operand fields of R12 and R72. -/

namespace Sys2Proof

inductive Instr where
  | cls                                    -- 00E0  CLS
  | ret                                    -- 00EE  RET
  | jp (nnn : Addr)                        -- 1nnn  JP addr
  | call (nnn : Addr)                      -- 2nnn  CALL addr
  | seByte (x : Reg) (kk : Byte)           -- 3xkk  SE Vx, byte
  | sneByte (x : Reg) (kk : Byte)          -- 4xkk  SNE Vx, byte
  | seReg (x y : Reg)                      -- 5xy0  SE Vx, Vy
  | ldByte (x : Reg) (kk : Byte)           -- 6xkk  LD Vx, byte
  | addByte (x : Reg) (kk : Byte)          -- 7xkk  ADD Vx, byte
  | ldReg (x y : Reg)                      -- 8xy0  LD Vx, Vy
  | orReg (x y : Reg)                      -- 8xy1  OR Vx, Vy
  | andReg (x y : Reg)                     -- 8xy2  AND Vx, Vy
  | xorReg (x y : Reg)                     -- 8xy3  XOR Vx, Vy
  | addReg (x y : Reg)                     -- 8xy4  ADD Vx, Vy
  | sub (x y : Reg)                        -- 8xy5  SUB Vx, Vy
  | shr (x y : Reg)                        -- 8xy6  SHR Vx (, Vy): y is encoded and ignored
  | subn (x y : Reg)                       -- 8xy7  SUBN Vx, Vy
  | shl (x y : Reg)                        -- 8xyE  SHL Vx (, Vy): y is encoded and ignored
  | sneReg (x y : Reg)                     -- 9xy0  SNE Vx, Vy
  | ldI (nnn : Addr)                       -- Annn  LD I, addr
  | jpV0 (nnn : Addr)                      -- Bnnn  JP V0, addr
  | rnd (x : Reg) (kk : Byte)              -- Cxkk  RND Vx, byte
  | drw (x y : Reg) (n : Fin 16)           -- Dxyn  DRW Vx, Vy, nibble
  | skp (x : Reg)                          -- Ex9E  SKP Vx
  | sknp (x : Reg)                         -- ExA1  SKNP Vx
  | ldVxDt (x : Reg)                       -- Fx07  LD Vx, DT
  | ldVxK (x : Reg)                        -- Fx0A  LD Vx, K
  | ldDtVx (x : Reg)                       -- Fx15  LD DT, Vx
  | ldStVx (x : Reg)                       -- Fx18  LD ST, Vx
  | addI (x : Reg)                         -- Fx1E  ADD I, Vx
  | ldF (x : Reg)                          -- Fx29  LD F, Vx
  | ldB (x : Reg)                          -- Fx33  LD B, Vx
  | ldMemVx (x : Reg)                      -- Fx55  LD [I], Vx
  | ldVxMem (x : Reg)                      -- Fx65  LD Vx, [I]
deriving DecidableEq, Repr

end Sys2Proof
end

