-- ==== Sys2Proof/WellFormed.lean ====
section
/-! DEFINITION. The operand ranges of 30_encoding.md R72 and R79, checked on plain numbers. An `Instr` carries its
operands in types of exactly these widths, so every `Instr` passes the check (Laws/PerInstr.lean); a written operand
that is out of range is refused here and becomes no `Instr`. -/

namespace Sys2Proof

/-- The operands of an instruction as an assembler line writes them, one shape per format of R71. -/
inductive Operands where
  | formN
  | formA (nnn : Nat)
  | formXK (x kk : Nat)
  | formXY (x y : Nat)
  | formXYN (x y n : Nat)
  | formX (x : Nat)
deriving DecidableEq, Repr

/-- `Vx` is one of V0..VF (R21, R79). -/
def isReg (x : Nat) : Bool := x < 16

/-- "`byte` is a number 0-255" (R79). -/
def isByte (kk : Nat) : Bool := kk < 256

/-- "`addr` a number 0-4095" (R79). -/
def isAddr (nnn : Nat) : Bool := nnn < 4096

/-- "`nibble` a number 0-15" (R79). -/
def isNibble (n : Nat) : Bool := n < 16

/-- Every operand is in its range. -/
def Operands.wellFormed : Operands → Bool
  | .formN => true
  | .formA nnn => isAddr nnn
  | .formXK x kk => isReg x && isByte kk
  | .formXY x y => isReg x && isReg y
  | .formXYN x y n => isReg x && isReg y && isNibble n
  | .formX x => isReg x

/-- The operands of an instruction, in the format that R74 gives its row. -/
def Instr.operands : Instr → Operands
  | .cls => .formN
  | .ret => .formN
  | .jp nnn => .formA nnn.toNat
  | .call nnn => .formA nnn.toNat
  | .seByte x kk => .formXK x kk.toNat
  | .sneByte x kk => .formXK x kk.toNat
  | .seReg x y => .formXY x y
  | .ldByte x kk => .formXK x kk.toNat
  | .addByte x kk => .formXK x kk.toNat
  | .ldReg x y => .formXY x y
  | .orReg x y => .formXY x y
  | .andReg x y => .formXY x y
  | .xorReg x y => .formXY x y
  | .addReg x y => .formXY x y
  | .sub x y => .formXY x y
  | .shr x y => .formXY x y
  | .subn x y => .formXY x y
  | .shl x y => .formXY x y
  | .sneReg x y => .formXY x y
  | .ldI nnn => .formA nnn.toNat
  | .jpV0 nnn => .formA nnn.toNat
  | .rnd x kk => .formXK x kk.toNat
  | .drw x y n => .formXYN x y n
  | .skp x => .formX x
  | .sknp x => .formX x
  | .ldVxDt x => .formX x
  | .ldVxK x => .formX x
  | .ldDtVx x => .formX x
  | .ldStVx x => .formX x
  | .addI x => .formX x
  | .ldF x => .formX x
  | .ldB x => .formX x
  | .ldMemVx x => .formX x
  | .ldVxMem x => .formX x

/-- An instruction is well-formed when its operands are in range. -/
def Instr.wellFormed (i : Instr) : Bool := i.operands.wellFormed

end Sys2Proof
end

