-- ==== Sys2Proof/Decode.lean ====
section
/-! DEFINITION. Decoding and encoding (spec/30_encoding.md), and the opcode map of R74 as data. The sub-opcode numbers
of the 8xyN and Fx families are the spec's own general-knowledge passages G1 and G2 (log entry 16). -/

namespace Sys2Proof

/-- `op[hi:lo]`, "the field of v from bit hi down to bit lo inclusive, as an unsigned number" (00_scope.md R8). -/
def field (op : Word) (hi lo : Nat) : Nat := op.toNat / 2 ^ lo % 2 ^ (hi - lo + 1)

/-- `x = op[11:8]` (R12). -/
def fieldX (op : Word) : Reg := ⟨field op 11 8, Nat.mod_lt _ (by decide)⟩

/-- `y = op[7:4]` (R12). -/
def fieldY (op : Word) : Reg := ⟨field op 7 4, Nat.mod_lt _ (by decide)⟩

/-- `n = op[3:0]` (R12). -/
def fieldN (op : Word) : Fin 16 := ⟨field op 3 0, Nat.mod_lt _ (by decide)⟩

/-- `kk = op[7:0]` (R12). -/
def fieldKK (op : Word) : Byte := BitVec.ofNat 8 (field op 7 0)

/-- `nnn = op[11:0]` (R12). -/
def fieldNNN (op : Word) : Addr := BitVec.ofNat 12 (field op 11 0)

/-- Family 8: the low nibble selects the operation (R74 rows 10-18, R75). -/
def decodeFamily8 (op : Word) : Option Instr :=
  match field op 3 0 with
  | 0x0 => some (.ldReg (fieldX op) (fieldY op))
  | 0x1 => some (.orReg (fieldX op) (fieldY op))
  | 0x2 => some (.andReg (fieldX op) (fieldY op))
  | 0x3 => some (.xorReg (fieldX op) (fieldY op))
  | 0x4 => some (.addReg (fieldX op) (fieldY op))
  | 0x5 => some (.sub (fieldX op) (fieldY op))
  | 0x6 => some (.shr (fieldX op) (fieldY op))
  | 0x7 => some (.subn (fieldX op) (fieldY op))
  | 0xE => some (.shl (fieldX op) (fieldY op))
  | _ => none

/-- Family E: the low byte selects the operation (R74 rows 24, 25). -/
def decodeFamilyE (op : Word) : Option Instr :=
  match field op 7 0 with
  | 0x9E => some (.skp (fieldX op))
  | 0xA1 => some (.sknp (fieldX op))
  | _ => none

/-- Family F: the low byte selects the operation (R74 rows 26-34, R75). -/
def decodeFamilyF (op : Word) : Option Instr :=
  match field op 7 0 with
  | 0x07 => some (.ldVxDt (fieldX op))
  | 0x0A => some (.ldVxK (fieldX op))
  | 0x15 => some (.ldDtVx (fieldX op))
  | 0x18 => some (.ldStVx (fieldX op))
  | 0x1E => some (.addI (fieldX op))
  | 0x29 => some (.ldF (fieldX op))
  | 0x33 => some (.ldB (fieldX op))
  | 0x55 => some (.ldMemVx (fieldX op))
  | 0x65 => some (.ldVxMem (fieldX op))
  | _ => none

/-- R73, R93: the instruction a word stands for, by exact match; `none` is UNKNOWN (R76). Decoding reads only the word. -/
def decodeWord (op : Word) : Option Instr :=
  match field op 15 12 with
  | 0x0 => if op = 0x00E0 then some .cls else if op = 0x00EE then some .ret else none
  | 0x1 => some (.jp (fieldNNN op))
  | 0x2 => some (.call (fieldNNN op))
  | 0x3 => some (.seByte (fieldX op) (fieldKK op))
  | 0x4 => some (.sneByte (fieldX op) (fieldKK op))
  | 0x5 => if fieldN op = 0 then some (.seReg (fieldX op) (fieldY op)) else none
  | 0x6 => some (.ldByte (fieldX op) (fieldKK op))
  | 0x7 => some (.addByte (fieldX op) (fieldKK op))
  | 0x8 => decodeFamily8 op
  | 0x9 => if fieldN op = 0 then some (.sneReg (fieldX op) (fieldY op)) else none
  | 0xA => some (.ldI (fieldNNN op))
  | 0xB => some (.jpV0 (fieldNNN op))
  | 0xC => some (.rnd (fieldX op) (fieldKK op))
  | 0xD => some (.drw (fieldX op) (fieldY op) (fieldN op))
  | 0xE => decodeFamilyE op
  | 0xF => decodeFamilyF op
  | _ => none

/-- Why a byte sequence is no instruction. -/
inductive Rejection where
  /-- fewer than two bytes: "every instruction is exactly 16 bits, two bytes" (R70) -/
  | truncated
  /-- the word matches no row of R74 (R76) -/
  | unknown (op : Word)
deriving DecidableEq, Repr

/-- Two bytes as one word, the byte at the lower address in bits 15-8 (R53, R70). -/
def wordOfBytes (hi lo : Byte) : Word := BitVec.ofNat 16 (hi.toNat * 256 + lo.toNat)

/-- Bits 15-8 of a word, the byte at the lower address (R53). -/
def highByte (op : Word) : Byte := BitVec.ofNat 8 (field op 15 8)

/-- Bits 7-0 of a word, the byte at the higher address (R53). -/
def lowByte (op : Word) : Byte := BitVec.ofNat 8 (field op 7 0)

/-- The instruction that a byte sequence begins with, and the bytes after it. -/
def decode : List Byte → Except Rejection (Instr × List Byte)
  | hi :: lo :: rest =>
    match decodeWord (wordOfBytes hi lo) with
    | some i => .ok (i, rest)
    | none => .error (.unknown (wordOfBytes hi lo))
  | _ => .error .truncated

/-- The table's numbering of a row's bits is the word itself: one 16-bit word, bit 0 the least significant. -/
def decodeTableWord (nbits w : Nat) : Option Instr :=
  let op := BitVec.ofNat 16 (w % 2 ^ nbits)
  match decode [highByte op, lowByte op] with
  | .ok (i, _) => some i
  | .error _ => none

/-! ## Encoding, from the formats of R71 -/

/-- Format A: `f nnn`. -/
def encodeA (f : Nat) (nnn : Addr) : Word := BitVec.ofNat 16 (f * 0x1000 + nnn.toNat)

/-- Format XK: `f x kk`. -/
def encodeXK (f : Nat) (x : Reg) (kk : Byte) : Word := BitVec.ofNat 16 (f * 0x1000 + x.val * 0x100 + kk.toNat)

/-- Formats XY and XYN: `f x y s`, where `s` is the sub-operation or the nibble operand. -/
def encodeXY (f : Nat) (x y : Reg) (s : Fin 16) : Word :=
  BitVec.ofNat 16 (f * 0x1000 + x.val * 0x100 + y.val * 0x10 + s.val)

/-- Format X: `f x ss`. -/
def encodeX (f : Nat) (x : Reg) (ss : Nat) : Word := BitVec.ofNat 16 (f * 0x1000 + x.val * 0x100 + ss)

/-- The word of an instruction (R74). -/
def encode : Instr → Word
  | .cls => 0x00E0
  | .ret => 0x00EE
  | .jp nnn => encodeA 0x1 nnn
  | .call nnn => encodeA 0x2 nnn
  | .seByte x kk => encodeXK 0x3 x kk
  | .sneByte x kk => encodeXK 0x4 x kk
  | .seReg x y => encodeXY 0x5 x y 0x0
  | .ldByte x kk => encodeXK 0x6 x kk
  | .addByte x kk => encodeXK 0x7 x kk
  | .ldReg x y => encodeXY 0x8 x y 0x0
  | .orReg x y => encodeXY 0x8 x y 0x1
  | .andReg x y => encodeXY 0x8 x y 0x2
  | .xorReg x y => encodeXY 0x8 x y 0x3
  | .addReg x y => encodeXY 0x8 x y 0x4
  | .sub x y => encodeXY 0x8 x y 0x5
  | .shr x y => encodeXY 0x8 x y 0x6
  | .subn x y => encodeXY 0x8 x y 0x7
  | .shl x y => encodeXY 0x8 x y 0xE
  | .sneReg x y => encodeXY 0x9 x y 0x0
  | .ldI nnn => encodeA 0xA nnn
  | .jpV0 nnn => encodeA 0xB nnn
  | .rnd x kk => encodeXK 0xC x kk
  | .drw x y n => encodeXY 0xD x y n
  | .skp x => encodeX 0xE x 0x9E
  | .sknp x => encodeX 0xE x 0xA1
  | .ldVxDt x => encodeX 0xF x 0x07
  | .ldVxK x => encodeX 0xF x 0x0A
  | .ldDtVx x => encodeX 0xF x 0x15
  | .ldStVx x => encodeX 0xF x 0x18
  | .addI x => encodeX 0xF x 0x1E
  | .ldF x => encodeX 0xF x 0x29
  | .ldB x => encodeX 0xF x 0x33
  | .ldMemVx x => encodeX 0xF x 0x55
  | .ldVxMem x => encodeX 0xF x 0x65

/-- The two bytes of an instruction as they stand in memory, big-endian (R70). -/
def encodeBytes (i : Instr) : List Byte := [highByte (encode i), lowByte (encode i)]

/-! ## The opcode map of R74 -/

/-- A row of R74: the mask and match columns. -/
structure OpcodeRow where
  mask : Word
  pattern : Word
deriving DecidableEq, Repr

/-- A word matches a row when its unmasked bits equal the row's (R73). -/
def OpcodeRow.covers (r : OpcodeRow) (op : Word) : Bool := op &&& r.mask == r.pattern

/-- Rows 1-6, 8, 9 and 20-23: one row per family, or an exact word (R74). -/
def opcodeRowsByFamily : List OpcodeRow :=
  [⟨0xFFFF, 0x00E0⟩, ⟨0xFFFF, 0x00EE⟩, ⟨0xF000, 0x1000⟩, ⟨0xF000, 0x2000⟩, ⟨0xF000, 0x3000⟩, ⟨0xF000, 0x4000⟩,
    ⟨0xF000, 0x6000⟩, ⟨0xF000, 0x7000⟩, ⟨0xF000, 0xA000⟩, ⟨0xF000, 0xB000⟩, ⟨0xF000, 0xC000⟩, ⟨0xF000, 0xD000⟩]

/-- Rows 7 and 10-19: a low nibble selects (R74). -/
def opcodeRowsByNibble : List OpcodeRow :=
  [⟨0xF00F, 0x5000⟩, ⟨0xF00F, 0x8000⟩, ⟨0xF00F, 0x8001⟩, ⟨0xF00F, 0x8002⟩, ⟨0xF00F, 0x8003⟩, ⟨0xF00F, 0x8004⟩,
    ⟨0xF00F, 0x8005⟩, ⟨0xF00F, 0x8006⟩, ⟨0xF00F, 0x8007⟩, ⟨0xF00F, 0x800E⟩, ⟨0xF00F, 0x9000⟩]

/-- Rows 24-34: a low byte selects (R74). -/
def opcodeRowsByByte : List OpcodeRow :=
  [⟨0xF0FF, 0xE09E⟩, ⟨0xF0FF, 0xE0A1⟩, ⟨0xF0FF, 0xF007⟩, ⟨0xF0FF, 0xF00A⟩, ⟨0xF0FF, 0xF015⟩, ⟨0xF0FF, 0xF018⟩,
    ⟨0xF0FF, 0xF01E⟩, ⟨0xF0FF, 0xF029⟩, ⟨0xF0FF, 0xF033⟩, ⟨0xF0FF, 0xF055⟩, ⟨0xF0FF, 0xF065⟩]

/-- The complete opcode map, 34 rows (R74). -/
def opcodeMap : List OpcodeRow := opcodeRowsByFamily ++ opcodeRowsByNibble ++ opcodeRowsByByte

/-- The row of an instruction: its mask, and the fixed bits of its pattern (R74). -/
def Instr.row : Instr → OpcodeRow
  | .cls => ⟨0xFFFF, 0x00E0⟩
  | .ret => ⟨0xFFFF, 0x00EE⟩
  | .jp _ => ⟨0xF000, 0x1000⟩
  | .call _ => ⟨0xF000, 0x2000⟩
  | .seByte _ _ => ⟨0xF000, 0x3000⟩
  | .sneByte _ _ => ⟨0xF000, 0x4000⟩
  | .seReg _ _ => ⟨0xF00F, 0x5000⟩
  | .ldByte _ _ => ⟨0xF000, 0x6000⟩
  | .addByte _ _ => ⟨0xF000, 0x7000⟩
  | .ldReg _ _ => ⟨0xF00F, 0x8000⟩
  | .orReg _ _ => ⟨0xF00F, 0x8001⟩
  | .andReg _ _ => ⟨0xF00F, 0x8002⟩
  | .xorReg _ _ => ⟨0xF00F, 0x8003⟩
  | .addReg _ _ => ⟨0xF00F, 0x8004⟩
  | .sub _ _ => ⟨0xF00F, 0x8005⟩
  | .shr _ _ => ⟨0xF00F, 0x8006⟩
  | .subn _ _ => ⟨0xF00F, 0x8007⟩
  | .shl _ _ => ⟨0xF00F, 0x800E⟩
  | .sneReg _ _ => ⟨0xF00F, 0x9000⟩
  | .ldI _ => ⟨0xF000, 0xA000⟩
  | .jpV0 _ => ⟨0xF000, 0xB000⟩
  | .rnd _ _ => ⟨0xF000, 0xC000⟩
  | .drw _ _ _ => ⟨0xF000, 0xD000⟩
  | .skp _ => ⟨0xF0FF, 0xE09E⟩
  | .sknp _ => ⟨0xF0FF, 0xE0A1⟩
  | .ldVxDt _ => ⟨0xF0FF, 0xF007⟩
  | .ldVxK _ => ⟨0xF0FF, 0xF00A⟩
  | .ldDtVx _ => ⟨0xF0FF, 0xF015⟩
  | .ldStVx _ => ⟨0xF0FF, 0xF018⟩
  | .addI _ => ⟨0xF0FF, 0xF01E⟩
  | .ldF _ => ⟨0xF0FF, 0xF029⟩
  | .ldB _ => ⟨0xF0FF, 0xF033⟩
  | .ldMemVx _ => ⟨0xF0FF, 0xF055⟩
  | .ldVxMem _ => ⟨0xF0FF, 0xF065⟩

end Sys2Proof
end

