-- ==== Sys2Proof/Config.lean ====
section
/-! DEFINITION. What an implementation fixes (spec/00_scope.md R7) and the model's free values. -/

namespace Sys2Proof

/-- The parameters that a step takes as arguments (R7). FONTSET, the third one, is an argument of the creation of a
machine (Machine/Boot.lean), since only the font load reads it (R252). -/
structure Parameters where
  /-- `STRICT_CONFORMANCE`: an unknown opcode is a fatal fault (R95), or else a logged no-op (R94). -/
  strictConformance : Bool
  /-- `ALLOW_ODD_PC`: a fetch at an odd PC proceeds, or else is a fatal fault (R91). -/
  allowOddPc : Bool
deriving DecidableEq, Repr

/-- The value of `STRICT_CONFORMANCE`, which R7 leaves OPEN with no default. No body: nothing can be proved of it.
DESIGN CHOICE, safe (log entry 3). -/
opaque Config.strictConformance : Bool

/-- The byte that the `rnd` input supplies to the k-th execution of Cxkk (R39, R230): a free value "under no law".
DESIGN CHOICE, safe (log entry 6). -/
opaque Config.rnd : Nat → Byte

end Sys2Proof
end

