-- ==== Sys2Proof/Machine/Parameters.lean ====
section
/-! DEFINITION. The parameter values of the machine that `step` runs (spec/00_scope.md R7). -/

namespace Sys2Proof.Machine

/-- `STRICT_CONFORMANCE` is open (log entry 3); `ALLOW_ODD_PC` has its default, false (log entry 4). -/
def parameters : Parameters where
  strictConformance := Config.strictConformance
  allowOddPc := false

/-- The default FONTSET (70_reset_and_hazards.md R252; log entry 5): 16 glyphs of 5 rows, top row first. -/
def fontset : List Byte :=
  [0xF0, 0x90, 0x90, 0x90, 0xF0] ++
  [0x20, 0x60, 0x20, 0x20, 0x70] ++
  [0xF0, 0x10, 0xF0, 0x80, 0xF0] ++
  [0xF0, 0x10, 0xF0, 0x10, 0xF0] ++
  [0x90, 0x90, 0xF0, 0x10, 0x10] ++
  [0xF0, 0x80, 0xF0, 0x10, 0xF0] ++
  [0xF0, 0x80, 0xF0, 0x90, 0xF0] ++
  [0xF0, 0x10, 0x20, 0x40, 0x40] ++
  [0xF0, 0x90, 0xF0, 0x90, 0xF0] ++
  [0xF0, 0x90, 0xF0, 0x10, 0xF0] ++
  [0xF0, 0x90, 0xF0, 0x90, 0x90] ++
  [0xE0, 0x90, 0xE0, 0x90, 0xE0] ++
  [0xF0, 0x80, 0x80, 0x80, 0xF0] ++
  [0xE0, 0x90, 0x90, 0x90, 0xE0] ++
  [0xF0, 0x80, 0xF0, 0x80, 0xF0] ++
  [0xF0, 0x80, 0xF0, 0x80, 0x80]

/-- What MEM[a] holds after reset, before a program is loaded (R40): the font, and zero elsewhere. -/
def resetByte (a : Nat) : Byte := if a < 0x50 then fontset.getD a 0 else 0

end Sys2Proof.Machine
end

