-- ==== Sys2Proof/Machine/State.lean ====
section
/-! DEFINITION. The state of the block (spec/10_state.md) and the ends of a step. Every field of the tuple of R20 is
here; the last three fields are the block's ports held as plain data, and are the model's own. -/

namespace Sys2Proof.Machine

/-- The fatal faults of 60_exceptions.md R210, with the info each records beside pc0 and op (log entry 12). -/
inductive FaultCause where
  /-- 2nnn with SP = 16 (R211) -/
  | stackOverflow
  /-- 00EE with SP = 0 (R212) -/
  | stackUnderflow
  /-- an access above 0xFFF, with the lowest bad address, an exact integer (R213) -/
  | memoryOutOfBounds (address : Nat)
  /-- a fetch at an odd PC when `ALLOW_ODD_PC` is false (R214) -/
  | misalignedFetch
  /-- Ex9E or ExA1 with V[x] above 0x0F, with that value (R215) -/
  | keyIndexOutOfRange (value : Byte)
  /-- an UNKNOWN word when `STRICT_CONFORMANCE` is true (R216) -/
  | unknownOpcode
deriving DecidableEq, Repr

/-- The codes of R210. -/
def FaultCause.code : FaultCause → Nat
  | .stackOverflow => 1
  | .stackUnderflow => 2
  | .memoryOutOfBounds _ => 3
  | .misalignedFetch => 4
  | .keyIndexOutOfRange _ => 5
  | .unknownOpcode => 6

/-- The fault record of R33: the cause, the address of the instruction that faulted, and its opcode, "absent" for a
fetch fault. -/
structure FaultRecord where
  cause : FaultCause
  pc0 : Word
  op : Option Word
deriving DecidableEq, Repr

/-- STATUS (R33). -/
inductive Status where
  | running
  | halted (f : FaultRecord)
deriving DecidableEq, Repr

/-- MEM (R32): the cells that differ from what they hold after reset, by rising address (Machine/Memory.lean). -/
abbrev Memory := List Host.Cell

/-- DISP (R30): 32 rows of 64 pixels. Column x of a row is bit x of its word (log entry 15). -/
abbrev Display := Vector (BitVec 64) 32

/-- One call `key_write(k, pressed)` of the input collaborator (R37). -/
structure KeyWrite where
  key : Fin 16
  pressed : Bool
deriving DecidableEq, Repr

/-- One event `UnknownOpcode(pc0, op)` on the `diag` output (60_exceptions.md R217). -/
structure DiagEvent where
  pc0 : Word
  op : Word
deriving DecidableEq, Repr

/-- The state tuple of R20, and the model's own port fields. -/
structure State where
  /-- MEM (R32) -/
  mem : Memory
  /-- V0-VF (R21) -/
  v : Vector Byte 16
  /-- I (R24) -/
  i : Word
  /-- PC (R25) -/
  pc : Word
  /-- SP, 0 to 16 (R26) -/
  sp : Fin 17
  /-- STACK[0..15] (R26) -/
  stack : Vector Word 16
  /-- DISP (R30) -/
  disp : Display
  /-- KEY[0x0..0xF] (R31) -/
  key : Vector Bool 16
  /-- DT (R28) -/
  dt : Byte
  /-- ST (R29) -/
  st : Byte
  /-- STATUS (R33) -/
  status : Status
  /-- the model's own: how many bytes the `rnd` input has supplied (R39; log entry 6) -/
  draws : Nat
  /-- the model's own: the `key_write` calls still to come, one list for each coming frame (R37; log entry 7) -/
  keyInput : List (List KeyWrite)
  /-- the model's own: what the `diag` output has emitted, oldest first (R38; log entry 8) -/
  diag : List DiagEvent
deriving DecidableEq, Repr

/-- There is no constructor: no step ends outside the state. A fatal fault of the block is a NEXT state whose STATUS is
`Halted` (R96, R220; log entry 2). Safe: nothing can be claimed of a fault that is never raised. -/
inductive Fault where
deriving DecidableEq, Repr

/-- The reasons for which a step is refused. -/
inductive Refusal where
  /-- raised by an arm of `exec` whose instruction has no meaning yet. Safe. No arm raises it. -/
  | notModelled (mnemonic : String)
deriving DecidableEq, Repr

/-- What a step or an instruction answers. -/
abbrev Result := Host.Outcome State Fault Refusal

/-- The state right after reset (R40): the font loaded, no program yet. The ports are empty (log entries 6, 7, 8). -/
def State.reset : State where
  mem := []
  v := Vector.replicate 16 0
  i := 0
  pc := 0x0200
  sp := 0
  stack := Vector.replicate 16 0
  disp := Vector.replicate 32 0
  key := Vector.replicate 16 false
  dt := 0
  st := 0
  status := .running
  draws := 0
  keyInput := []
  diag := []

end Sys2Proof.Machine
end

