-- ==== Sys2Proof/Machine/Memory.lean ====
section
/-! DEFINITION. MEM and its primitives (spec/20_memory.md). A memory lists the cells that differ from their reset
contents, by strictly rising address, so that equal memories are equal lists. -/

namespace Sys2Proof.Machine

/-- 4096 cells, 0x000-0xFFF (R50). -/
def memorySize : Nat := 4096

/-- The contents of one cell: an unlisted cell holds its reset contents (R40). -/
def Memory.read : Memory → Nat → Byte
  | [], a => resetByte a
  | (b, w) :: m, a => if a = b then w else Memory.read m a

/-- Put a cell in front of a memory whose addresses are all higher; a cell at its reset contents is not listed. -/
def Memory.cons (a : Nat) (w : Byte) (m : Memory) : Memory := if w = resetByte a then m else (a, w) :: m

/-- Replace the contents of one cell, in canonical form. -/
def Memory.write : Memory → Nat → Byte → Memory
  | [], a, w => Memory.cons a w []
  | (b, u) :: m, a, w =>
    if a < b then Memory.cons a w ((b, u) :: m)
    else if a = b then Memory.cons a w m
    else (b, u) :: Memory.write m a w

/-- The canonical form: addresses inside the space and strictly rising, no cell at its reset contents. -/
def Memory.wf : Memory → Bool
  | [] => true
  | (a, w) :: m => decide (a < memorySize) && w != resetByte a && m.all (fun c => decide (a < c.1)) && Memory.wf m

/-- `MemRead(addr, 1)` (R51): an address above 0xFFF raises MemoryOutOfBounds; it is never wrapped or masked. -/
def memRead (m : Memory) (a : Nat) : Except FaultCause Byte :=
  if a > 0xFFF then .error (.memoryOutOfBounds a) else .ok (m.read a)

/-- `MemWrite(addr, 1, w)` (R51). -/
def memWrite (m : Memory) (a : Nat) (w : Byte) : Except FaultCause Memory :=
  if a > 0xFFF then .error (.memoryOutOfBounds a) else .ok (m.write a w)

/-- R56: an access to `count` cells from `base` checks every address before it touches one, and records the lowest bad
address, `max(I, 0x1000)` in R163-R165 and R181. The sum is exact (R51). -/
def checkBlock (base count : Nat) : Except FaultCause Unit :=
  if count = 0 ∨ base + count - 1 ≤ 0xFFF then .ok () else .error (.memoryOutOfBounds (max base 0x1000))

/-- The `count` cells from `base` on. -/
def Memory.readBytes (m : Memory) (base : Nat) : Nat → List Byte
  | 0 => []
  | count + 1 => m.read base :: Memory.readBytes m (base + 1) count

/-- Store the bytes from `base` on, one after the other. -/
def Memory.writeBytes : Memory → Nat → List Byte → Memory
  | m, _, [] => m
  | m, base, w :: ws => Memory.writeBytes (m.write base w) (base + 1) ws

end Sys2Proof.Machine
end

