-- ==== Sys2Proof/Machine/Operands.lean ====
section
/-! DEFINITION. The operand forms of 30_encoding.md R72 and 43_memory_index.md R166: how each is read and written. -/

namespace Sys2Proof.Machine

/-- `V[x]` (R21). -/
def State.reg (s : State) (x : Reg) : Byte := s.v[x.val]

/-- `V[x] <- b` (R21). No register is hardwired. -/
def State.setReg (s : State) (x : Reg) (b : Byte) : State := { s with v := s.v.set x.val b }

/-- `I <- w` (R24). -/
def State.setI (s : State) (w : Word) : State := { s with i := w }

/-- `DT <- b` (R28). -/
def State.setDt (s : State) (b : Byte) : State := { s with dt := b }

/-- `ST <- b` (R29). -/
def State.setSt (s : State) (b : Byte) : State := { s with st := b }

/-- The `nnn` operand, `zext_16` (R72). -/
def addrWord (nnn : Addr) : Word := nnn.setWidth 16

/-- A register's value added to a 16-bit register, `zext_16(V[x])` (R161, R117). -/
def regWord (s : State) (x : Reg) : Word := (s.reg x).setWidth 16

/-- The address `I + k` as an exact integer starts here (R51, R166). -/
def State.base (s : State) : Nat := s.i.toNat

/-- The glyph address `5 * V[x]` (R162, R166): the largest is 0x4FB, so nothing wraps. -/
def glyphAddress (digit : Byte) : Word := BitVec.ofNat 16 (5 * digit.toNat)

/-- The sixteen register numbers in order. -/
def allRegs : List Reg := [0, 1, 2, 3, 4, 5, 6, 7, 8, 9, 10, 11, 12, 13, 14, 15]

/-- The registers `V0..Vx` of Fx55 and Fx65, in order (R164, R165). -/
def regsUpTo (x : Reg) : List Reg := allRegs.filter (fun r => decide (r ≤ x))

/-- The key latch cell that a register value names (R190, R191): none above 0xF. -/
def keyNumber (k : Byte) : Option (Fin 16) := if h : k.toNat < 16 then some ⟨k.toNat, h⟩ else none

/-- `KEY[k]` (R31). -/
def State.keyDown (s : State) (k : Fin 16) : Bool := s.key[k.val]

/-- `min { k | KEY[k] }`, or none when no key is pressed (R193). -/
def State.lowestKey (s : State) : Option (Fin 16) := allRegs.find? (fun k => s.keyDown k)

/-- The byte of a key number stored in a register (R193). -/
def keyByte (k : Fin 16) : Byte := BitVec.ofNat 8 k.val

end Sys2Proof.Machine
end

