-- ==== Sys2Proof/Machine/Ops.lean ====
section
/-! DEFINITION. The operations that the meanings share: the PC, the return-address stack, taking a fault, and writing a
result with its flag. A meaning runs after the fetch advance, so `s.pc` is pc0 + 2 (00_scope.md R11, 40_engine_cycle.md
R92). -/

namespace Sys2Proof.Machine

/-- `PC <- trunc_16(pc0 + 2)`, once per step, before the body (40_engine_cycle.md R92). -/
def State.advance (s : State) : State := { s with pc := s.pc + 2 }

/-- `PC <- target`; a target is not checked when it is written (41_control_flow.md R119). -/
def State.setPc (s : State) (target : Word) : State := { s with pc := target }

/-- `skip`: `PC <- trunc_16(PC + 2)` on top of the advance (40_engine_cycle.md R99). -/
def State.skip (s : State) : State := s.setPc (s.pc + 2)

/-- Skip when the condition holds (R99). -/
def State.skipIf (s : State) (b : Bool) : State := if b then s.skip else s

/-- `pc0`, the address of the instruction whose body runs (R11; log entry 10). -/
def State.pc0 (s : State) : Word := s.pc - 2

/-- Fault entry (60_exceptions.md R220, 40_engine_cycle.md R96): none of the step's writes takes effect, PC is pc0, and
STATUS becomes `Halted` with the record. It is called on a state that the step has not written yet, the advance apart,
which it undoes. There is no return: only a new reset leaves the halted state (R33, R222). -/
def takeFault (cause : FaultCause) (pc0 : Word) (op : Option Word) (s : State) : State :=
  { s with pc := pc0, status := .halted { cause := cause, pc0 := pc0, op := op } }

/-- `raise` in the body of an instruction: the record holds pc0 and the instruction's own word (R33; log entry 10). -/
def raise (i : Instr) (cause : FaultCause) (s : State) : Result :=
  .next (takeFault cause s.pc0 (some (encode i)) s)

/-- An instruction whose check may raise a fault: the check first, then the effect (20_memory.md R56). -/
def guarded (i : Instr) (check : Except FaultCause Unit) (s : State) (effect : State) : Result :=
  match check with
  | .ok _ => .next effect
  | .error cause => raise i cause s

/-- A push: `STACK[SP] <- w`, then `SP <- SP + 1`; none when SP = 16 (10_state.md R26, R27). -/
def State.push (s : State) (w : Word) : Option State :=
  if h : s.sp.val < 16 then some { s with stack := s.stack.set s.sp.val w, sp := ⟨s.sp.val + 1, by omega⟩ } else none

/-- A pop: `SP <- SP - 1`, then `STACK[SP]`; none when SP = 0. The entry keeps its value (R26, R27). -/
def State.pop (s : State) : Option (Word × State) :=
  if h : s.sp.val = 0 then none
  else some (s.stack[s.sp.val - 1], { s with sp := ⟨s.sp.val - 1, by omega⟩ })

/-- The result to Vx first, then the flag to VF: when x = F the flag is what remains (42_load_alu.md R143). -/
def State.setResultAndFlag (s : State) (x : Reg) (result flag : Byte) : State := (s.setReg x result).setReg VF flag

end Sys2Proof.Machine
end

