-- ==== Sys2Proof/Machine/Alu.lean ====
section
/-! DEFINITION. Register loads, the ALU and the random byte (spec/42_load_alu.md). -/

namespace Sys2Proof.Machine

/-- R130: `V[x] <- kk`. -/
def execLdByte (x : Reg) (kk : Byte) (s : State) : Result := .next (s.setReg x kk)

/-- R131: `V[x] <- trunc_8(V[x] + kk)`, no flag. -/
def execAddByte (x : Reg) (kk : Byte) (s : State) : Result := .next (s.setReg x (sum8 (s.reg x) kk))

/-- R132: `V[x] <- V[y]`. -/
def execLdReg (x y : Reg) (s : State) : Result := .next (s.setReg x (s.reg y))

/-- R133: `V[x] <- V[x] | V[y]`, VF unchanged unless it is x. -/
def execOrReg (x y : Reg) (s : State) : Result := .next (s.setReg x (s.reg x ||| s.reg y))

/-- R134: `V[x] <- V[x] & V[y]`, VF unchanged unless it is x. -/
def execAndReg (x y : Reg) (s : State) : Result := .next (s.setReg x (s.reg x &&& s.reg y))

/-- R135: `V[x] <- V[x] ^ V[y]`, VF unchanged unless it is x. -/
def execXorReg (x y : Reg) (s : State) : Result := .next (s.setReg x (s.reg x ^^^ s.reg y))

/-- R136: add, VF = carry. -/
def execAddReg (x y : Reg) (s : State) : Result :=
  .next (s.setResultAndFlag x (sum8 (s.reg x) (s.reg y)) (carryFlag (s.reg x) (s.reg y)))

/-- R137: Vx minus Vy, VF = not borrow. -/
def execSub (x y : Reg) (s : State) : Result :=
  .next (s.setResultAndFlag x (diff8 (s.reg x) (s.reg y)) (noBorrowFlag (s.reg x) (s.reg y)))

/-- R138: shift Vx right by one, VF = the bit shifted out. The operand y is ignored. -/
def execShr (x : Reg) (_y : Reg) (s : State) : Result :=
  .next (s.setResultAndFlag x (half8 (s.reg x)) (lowBitFlag (s.reg x)))

/-- R139: Vy minus Vx, VF = not borrow. -/
def execSubn (x y : Reg) (s : State) : Result :=
  .next (s.setResultAndFlag x (diff8 (s.reg y) (s.reg x)) (noBorrowFlag (s.reg y) (s.reg x)))

/-- R140: shift Vx left by one, VF = the bit shifted out. The operand y is ignored. -/
def execShl (x : Reg) (_y : Reg) (s : State) : Result :=
  .next (s.setResultAndFlag x (double8 (s.reg x)) (highBitFlag (s.reg x)))

/-- R141: `V[x] <- r & kk` for the byte r that the `rnd` input supplies. -/
def loadMasked (r : Byte) (x : Reg) (kk : Byte) (s : State) : State := s.setReg x (r &&& kk)

/-- R141: the byte is the free value of this draw (R230; log entry 6). -/
def execRnd (x : Reg) (kk : Byte) (s : State) : Result :=
  .next (loadMasked (Config.rnd s.draws) x kk { s with draws := s.draws + 1 })

end Sys2Proof.Machine
end

