-- ==== Sys2Proof/Machine/Control.lean ====
section
/-! DEFINITION. Control transfer and conditional skips (spec/41_control_flow.md). -/

namespace Sys2Proof.Machine

/-- R110: return from subroutine; StackUnderflow when SP = 0. -/
def execRet (s : State) : Result :=
  match s.pop with
  | none => raise .ret .stackUnderflow s
  | some (target, t) => .next (t.setPc target)

/-- R111: `PC <- nnn`. -/
def execJp (nnn : Addr) (s : State) : Result := .next (s.setPc (addrWord nnn))

/-- R112: push the return address, then `PC <- nnn`; StackOverflow when SP = 16. -/
def execCall (nnn : Addr) (s : State) : Result :=
  match s.push s.pc with
  | none => raise (.call nnn) .stackOverflow s
  | some t => .next (t.setPc (addrWord nnn))

/-- R113: skip if `V[x] == kk`. -/
def execSeByte (x : Reg) (kk : Byte) (s : State) : Result := .next (s.skipIf (s.reg x == kk))

/-- R114: skip if `V[x] != kk`. -/
def execSneByte (x : Reg) (kk : Byte) (s : State) : Result := .next (s.skipIf (s.reg x != kk))

/-- R115: skip if `V[x] == V[y]`. -/
def execSeReg (x y : Reg) (s : State) : Result := .next (s.skipIf (s.reg x == s.reg y))

/-- R116: skip if `V[x] != V[y]`. -/
def execSneReg (x y : Reg) (s : State) : Result := .next (s.skipIf (s.reg x != s.reg y))

/-- R117: `PC <- nnn + V0`; the sum is at most 0x10FE and is not masked. -/
def execJpV0 (nnn : Addr) (s : State) : Result := .next (s.setPc (addrWord nnn + regWord s 0))

end Sys2Proof.Machine
end

