-- ==== Sys2Proof/Machine/Display.lean ====
section
/-! DEFINITION. The display buffer controller (spec/44_display.md). -/

namespace Sys2Proof.Machine

/-- The name of a pixel: its row y and its column x (R182). -/
structure Pixel where
  row : Fin 32
  col : Fin 64
deriving DecidableEq, Repr

/-- `DISP[y][x]` (10_state.md R30). -/
def Display.pixel (d : Display) (p : Pixel) : Bool := d[p.row.val].getLsbD p.col.val

/-- `DISP[y][x] <- DISP[y][x] ^ 1` (R181). -/
def Display.flip (d : Display) (p : Pixel) : Display :=
  d.set p.row.val (d[p.row.val] ^^^ BitVec.twoPow 64 p.col.val)

/-- The display with every pixel clear (R180). -/
def Display.blank : Display := Vector.replicate 32 0

/-- The pixel that a coordinate pair lands on, each wrapped separately: column mod 64, row mod 32 (R182). -/
def wrapPixel (y x : Nat) : Pixel := ⟨⟨y % 32, Nat.mod_lt _ (by decide)⟩, ⟨x % 64, Nat.mod_lt _ (by decide)⟩⟩

/-- The pixels of one sprite row drawn at row y, column x, in the order of R181. Bit 7 of the row byte is sprite column
0, the leftmost (R183). -/
def rowPixels (y x : Nat) (row : Byte) : List Pixel :=
  ([0, 1, 2, 3, 4, 5, 6, 7].filter (fun c => row.getLsbD (7 - c))).map (fun c => wrapPixel y (x + c))

/-- The pixels of a sprite drawn with its first row at row y, column x: one byte per row (R183). -/
def spritePixels (y x : Nat) : List Byte → List Pixel
  | [] => []
  | row :: rows => rowPixels y x row ++ spritePixels (y + 1) x rows

/-- One pixel of the loop of R181: note a collision if the pixel is set, then flip it. -/
def plot (dc : Display × Bool) (p : Pixel) : Display × Bool := (dc.1.flip p, dc.2 || dc.1.pixel p)

/-- The loop of R181 over a sprite's rows: the new display, and whether a set pixel was erased. -/
def drawSprite (d : Display) (y x : Nat) (rows : List Byte) : Display × Bool :=
  (spritePixels y x rows).foldl plot (d, false)

/-- R180: clear the display. -/
def execCls (s : State) : Result := .next { s with disp := Display.blank }

/-- The sprite of Dxyn: the n bytes from I on (R183). -/
def State.sprite (s : State) (n : Nat) : List Byte := s.mem.readBytes s.base n

/-- What Dxyn leaves when its addresses are in bounds: DISP drawn, then VF written, last (R181). -/
def State.draw (s : State) (x y : Reg) (n : Nat) : State :=
  let dc := drawSprite s.disp (s.reg y).toNat (s.reg x).toNat (s.sprite n)
  { s with disp := dc.1 }.setReg VF (flagByte dc.2)

/-- R181: XOR-draw an n-row sprite at (Vx, Vy), VF = collision. -/
def execDrw (x y : Reg) (n : Fin 16) (s : State) : Result :=
  guarded (.drw x y n) (checkBlock s.base n.val) s (s.draw x y n.val)

end Sys2Proof.Machine
end

