-- ==== Sys2Proof/Machine/Index.lean ====
section
/-! DEFINITION. The index register and the memory block operations (spec/43_memory_index.md). I is never changed by an
access (R166). -/

namespace Sys2Proof.Machine

/-- R160: `I <- nnn`. -/
def execLdI (nnn : Addr) (s : State) : Result := .next (s.setI (addrWord nnn))

/-- R161: `I <- trunc_16(I + V[x])`, VF unchanged. -/
def execAddI (x : Reg) (s : State) : Result := .next (s.setI (s.i + regWord s x))

/-- R162: `I <- 5 * V[x]`, unmasked. -/
def execLdF (x : Reg) (s : State) : Result := .next (s.setI (glyphAddress (s.reg x)))

/-- The hundreds, tens and ones of a byte (R163). -/
def bcdDigits (b : Byte) : List Byte :=
  [BitVec.ofNat 8 (b.toNat / 100), BitVec.ofNat 8 (b.toNat / 10 % 10), BitVec.ofNat 8 (b.toNat % 10)]

/-- Store bytes from `I` on (R163, R164). -/
def State.storeAtI (s : State) (bytes : List Byte) : State := { s with mem := s.mem.writeBytes s.base bytes }

/-- R163: store the three decimal digits of V[x] at I, I+1, I+2. -/
def execLdB (x : Reg) (s : State) : Result :=
  guarded (.ldB x) (checkBlock s.base 3) s (s.storeAtI (bcdDigits (s.reg x)))

/-- R164: store V0..Vx at I .. I+x. -/
def execLdMemVx (x : Reg) (s : State) : Result :=
  guarded (.ldMemVx x) (checkBlock s.base (x.val + 1)) s (s.storeAtI ((regsUpTo x).map s.reg))

/-- R165: load V0..Vx from I .. I+x, in order. -/
def State.loadFromI (s : State) (x : Reg) : State :=
  (regsUpTo x).foldl (fun t r => t.setReg r (s.mem.read (s.base + r.val))) s

/-- R165: load registers V0..Vx from memory. -/
def execLdVxMem (x : Reg) (s : State) : Result :=
  guarded (.ldVxMem x) (checkBlock s.base (x.val + 1)) s (s.loadFromI x)

end Sys2Proof.Machine
end

