-- ==== Sys2Proof/Machine/InputTimers.lean ====
section
/-! DEFINITION. Key-latch and timer instructions (spec/45_input_timers.md). -/

namespace Sys2Proof.Machine

/-- A skip on the state of key V[x]; KeyIndexOutOfRange above 0xF (R190, R191). -/
def skipOnKey (i : Instr) (x : Reg) (whenDown : Bool) (s : State) : Result :=
  match keyNumber (s.reg x) with
  | none => raise i (.keyIndexOutOfRange (s.reg x)) s
  | some k => .next (s.skipIf (s.keyDown k == whenDown))

/-- R190: skip if key V[x] is pressed. -/
def execSkp (x : Reg) (s : State) : Result := skipOnKey (.skp x) x true s

/-- R191: skip if key V[x] is not pressed. -/
def execSknp (x : Reg) (s : State) : Result := skipOnKey (.sknp x) x false s

/-- R192: `V[x] <- DT`. -/
def execLdVxDt (x : Reg) (s : State) : Result := .next (s.setReg x s.dt)

/-- R193: V[x] receives the lowest pressed key; with no key pressed PC moves back by 2, and the same instruction runs
again in the next step. -/
def execLdVxK (x : Reg) (s : State) : Result :=
  match s.lowestKey with
  | some k => .next (s.setReg x (keyByte k))
  | none => .next (s.setPc (s.pc - 2))

/-- R194: `DT <- V[x]`. -/
def execLdDtVx (x : Reg) (s : State) : Result := .next (s.setDt (s.reg x))

/-- R195: `ST <- V[x]`. -/
def execLdStVx (x : Reg) (s : State) : Result := .next (s.setSt (s.reg x))

end Sys2Proof.Machine
end

