-- ==== Sys2Proof/Machine/Fetch.lean ====
section
/-! DEFINITION. Instruction fetch and the UNKNOWN body (spec/40_engine_cycle.md R91, R94, R95). -/

namespace Sys2Proof.Machine

/-- R91: the alignment check, then the two byte reads at PC and PC+1 as exact integers, big-endian. -/
def fetch (p : Parameters) (s : State) : Except FaultCause Word :=
  if s.pc.toNat % 2 = 1 ∧ p.allowOddPc = false then .error .misalignedFetch
  else
    match memRead s.mem s.pc.toNat, memRead s.mem (s.pc.toNat + 1) with
    | .ok hi, .ok lo => .ok (wordOfBytes hi lo)
    | .error cause, _ => .error cause
    | .ok _, .error cause => .error cause

/-- The UNKNOWN body, after the advance: fatal in strict mode (R95), or else one event on `diag` and no other effect
(R94). -/
def execUnknown (p : Parameters) (op : Word) (s : State) : State :=
  if p.strictConformance then takeFault .unknownOpcode s.pc0 (some op) s
  else { s with diag := s.diag ++ [{ pc0 := s.pc0, op := op }] }

end Sys2Proof.Machine
end

