-- ==== Sys2Proof/Machine/Ports.lean ====
section
/-! DEFINITION. The block's ports (spec/10_state.md R36-R39) and the timer tick (spec/60_exceptions.md R225). -/

namespace Sys2Proof.Machine

/-- One timer's countdown: "A timer at 0 stays at 0" (R225). -/
def countDown (t : Byte) : Byte := if t = 0 then 0 else t - 1

/-- Control input `tick` (R36, R225): both timers count down, unless STATUS is `Halted`. -/
def tick (s : State) : State :=
  match s.status with
  | .running => { s with dt := countDown s.dt, st := countDown s.st }
  | .halted _ => s

/-- Input port `key_write(k, pressed)` (R37). -/
def keyWrite (s : State) (w : KeyWrite) : State := { s with key := s.key.set w.key.val w.pressed }

/-- The key refresh of one frame (70_reset_and_hazards.md R257): the writes that the input collaborator makes before the
next step. When the script has ended no key changes (log entry 7). -/
def refreshKeys (s : State) : State :=
  match s.keyInput with
  | [] => s
  | writes :: later => { writes.foldl keyWrite s with keyInput := later }

/-- Output port `display_read` (R38): the 2048 pixels as a flat array, element `y*64 + x` is `DISP[y][x]`. -/
def displayRead (s : State) : Vector Bool 2048 := Vector.ofFn fun k => s.disp.pixel (wrapPixel (k.val / 64) k.val)

/-- Output `sound_active` (R38, 60_exceptions.md R227). -/
def soundActive (s : State) : Bool := s.st != 0

/-- Output `status` (R38). -/
def statusOut (s : State) : Status := s.status

/-- Output `diag` (R38): the stream of diagnostic events so far. -/
def diagOut (s : State) : List DiagEvent := s.diag

end Sys2Proof.Machine
end

