-- ==== Sys2Proof/Machine/Cycle.lean ====
section
/-! DEFINITION. One step of the engine (spec/40_engine_cycle.md R90) and one frame of the machine
(spec/70_reset_and_hazards.md R257). -/

namespace Sys2Proof.Machine

/-- Control input `step` (10_state.md R36, R90): fetch, advance, decode, one body, commit. It is ignored while STATUS is
`Halted`. A fetch fault is recorded with no opcode (R33). -/
def engineStep (p : Parameters) (s : State) : Result :=
  match s.status with
  | .halted _ => .next s
  | .running =>
    match fetch p s with
    | .error cause => .next (takeFault cause s.pc none s)
    | .ok op =>
      match decodeWord op with
      | some i => exec i s.advance
      | none => .next (execUnknown p op s.advance)

/-- What the frame does after the engine's step: the tick, then the key refresh (R257). -/
def endFrame (s : State) : State := refreshKeys (tick s)

/-- One frame (R257): step, tick, key refresh. The redraw only reads the display and the wait is time (R263). A host
runs no frame of a block that is halted when the frame begins (R257; log entry 14). -/
def frame (p : Parameters) (s : State) : Result :=
  match s.status with
  | .halted _ => .next s
  | .running =>
    match engineStep p s with
    | .next t => .next (endFrame t)
    | .fault r => .fault r
    | .refused r => .refused r

end Sys2Proof.Machine
end

