-- ==== Sys2Proof/Machine/Step.lean ====
section
/-! DEFINITION. One step of the machine is one frame of spec/70_reset_and_hazards.md R257 (log entry 1). -/

namespace Sys2Proof.Machine

/-- One frame, with the machine's parameter values (Machine/Parameters.lean). -/
def step (s : State) : Host.Outcome State Fault Refusal := frame parameters s

/-- Where an instruction can be fetched from: an even address whose two bytes exist (40_engine_cycle.md R91). -/
def fetchable (pc : Word) : Bool := pc.toNat % 2 == 0 && decide (pc.toNat + 1 ≤ 0xFFF)

/-- The state with the instruction whose bits are w stored where the next step fetches, so that the next step runs it
(log entry 11). A PC that nothing can be fetched from becomes the entry point, and a halted block runs again. -/
def State.withFetchWord (s : State) (nbits w : Nat) : State :=
  let op : Word := BitVec.ofNat 16 (w % 2 ^ nbits)
  let pc : Word := if fetchable s.pc then s.pc else 0x0200
  { s with pc := pc, status := .running, mem := s.mem.writeBytes pc.toNat [highByte op, lowByte op] }

end Sys2Proof.Machine
end

