-- ==== Sys2Proof/Machine/Boot.lean ====
section
/-! DEFINITION. Reset is the creation of a machine (spec/70_reset_and_hazards.md R250-R254). -/

namespace Sys2Proof.Machine

/-- R251: memory with every cell 0x00. Only the cells of the default font differ from their reset contents. -/
def zeroFill : Memory := Memory.writeBytes [] 0 (List.replicate fontset.length 0)

/-- R252: the font load copies FONTSET, byte for byte, to 0x000 and up. -/
def loadFont (font : List Byte) (m : Memory) : Memory := m.writeBytes 0 font

/-- R250 steps 1-3: zero fill, the values of 10_state.md R40, the font load. FONTSET is the parameter of R7, 80 bytes. -/
def State.create (font : Vector Byte 80) : State := { State.reset with mem := loadFont font.toList zeroFill }

/-- The entry point, where the program image is loaded (R253, R255). -/
def loadAddress : Nat := 0x200

/-- The largest image, 4096 - 0x200 bytes (R254, 00_scope.md R6). -/
def maxImageSize : Nat := memorySize - loadAddress

/-- Input port `load` (10_state.md R39, R253): byte i of the image to 0x200 + i. -/
def State.loadImage (s : State) (image : List Byte) : State := { s with mem := s.mem.writeBytes loadAddress image }

/-- The fatal startup errors of a load (R254, 60_exceptions.md R210 (a)). -/
inductive StartupError where
  /-- the file "cannot be opened" -/
  | cannotOpen
  /-- the image is longer than 3584 bytes -/
  | tooLarge
deriving DecidableEq, Repr

/-- R250 whole: a machine ready for its first step, or a startup error and no machine. The image is what the ROM loader
read, or none if the file could not be opened. An empty image is taken as given (log entry 13). -/
def createMachine (font : Vector Byte 80) (image : Option (List Byte)) : Except StartupError State :=
  match image with
  | none => .error .cannotOpen
  | some bytes =>
    if bytes.length > maxImageSize then .error .tooLarge else .ok ((State.create font).loadImage bytes)

end Sys2Proof.Machine
end

