-- ==== Sys2Proof/Safety.lean ====
section
/-! DEFINITION. The terms that statements about the machine use: its invariant, what an instruction may write, and what
a sprite covers. A run is safe while STATUS is `Running`: a halted run satisfies no claim that needs success
(spec/92_eei_decisions.md D4). -/

namespace Sys2Proof.Machine

/-- A safe step: it answers a next state in which the block still runs (D4). -/
def SafeStep (s : State) : Prop := ∃ t, step s = .next t ∧ t.status = .running

/-- Every return address in use is one that a CALL of a fetched instruction pushed: even, and at most 0x1000 (10_state.md
R26, 40_engine_cycle.md R92). -/
def ReturnAddressesLegal (s : State) : Prop :=
  ∀ j : Fin 16, j.val < s.sp.val → s.stack[j.val].toNat % 2 = 0 ∧ s.stack[j.val].toNat ≤ 0x1000

/-- The invariant of the machine: MEM is in canonical form and inside its space, the return addresses in use are legal,
PC is at most the largest target of `JP V0, addr` (R25), and a halted block stands at the instruction that faulted
(60_exceptions.md R220). -/
def Inv (s : State) : Prop :=
  s.mem.wf = true ∧ ReturnAddressesLegal s ∧ s.pc.toNat ≤ 0x10FE ∧ ∀ f, s.status = .halted f → f.pc0 = s.pc

/-- The state that a fault raised by the body of `i` leaves, when the body runs on `s` (R96, R220): STATUS apart it is
the state before the instruction, with PC = pc0. -/
def faulted (i : Instr) (cause : FaultCause) (s : State) : State :=
  { s with pc := s.pc - 2, status := .halted { cause := cause, pc0 := s.pc - 2, op := some (encode i) } }

/-- The general registers an instruction may write (10_state.md R22). -/
def regsWritten : Instr → List Reg
  | .cls | .ret | .jp _ | .call _ => []
  | .seByte _ _ | .sneByte _ _ | .seReg _ _ | .sneReg _ _ => []
  | .ldByte x _ | .addByte x _ | .rnd x _ => [x]
  | .ldReg x _ | .orReg x _ | .andReg x _ | .xorReg x _ => [x]
  | .addReg x _ | .sub x _ | .shr x _ | .subn x _ | .shl x _ => [x, VF]
  | .ldI _ | .jpV0 _ | .addI _ | .ldF _ | .ldB _ | .ldMemVx _ => []
  | .drw _ _ _ => [VF]
  | .skp _ | .sknp _ | .ldDtVx _ | .ldStVx _ => []
  | .ldVxDt x | .ldVxK x => [x]
  | .ldVxMem x => (List.finRange 16).filter (fun r => decide (r ≤ x))

/-- How many data bytes an instruction accesses, from I on (20_memory.md R55). -/
def dataBytes : Instr → Nat
  | .drw _ _ n => n.val
  | .ldB _ => 3
  | .ldMemVx x => x.val + 1
  | .ldVxMem x => x.val + 1
  | .cls | .ret | .jp _ | .call _ | .seByte _ _ | .sneByte _ _ | .seReg _ _ | .sneReg _ _ => 0
  | .ldByte _ _ | .addByte _ _ | .rnd _ _ | .ldReg _ _ | .orReg _ _ | .andReg _ _ | .xorReg _ _ => 0
  | .addReg _ _ | .sub _ _ | .shr _ _ | .subn _ _ | .shl _ _ | .ldI _ | .jpV0 _ | .addI _ | .ldF _ => 0
  | .skp _ | .sknp _ | .ldVxDt _ | .ldVxK _ | .ldDtVx _ | .ldStVx _ => 0

/-- A set bit of the n-row sprite at I, drawn at (V[x], V[y]), lands on the pixel: bit 7 - c of row r, at row
(V[y] + r) mod 32 and column (V[x] + c) mod 64 (44_display.md R181-R183). -/
def SpriteCovers (s : State) (x y : Reg) (n : Nat) (p : Pixel) : Prop :=
  ∃ r c, r < n ∧ c < 8 ∧ (s.mem.read (s.i.toNat + r)).getLsbD (7 - c) = true ∧
    p.row.val = (s.v[y.val].toNat + r) % 32 ∧ p.col.val = (s.v[x.val].toNat + c) % 64

/-- The bodies of several instructions, one after the other, stopping where one does not answer a next state. -/
def execAll : List Instr → State → Result
  | [], s => .next s
  | i :: is, s =>
    match exec i s with
    | .next t => execAll is t
    | .fault r => .fault r
    | .refused r => .refused r

end Sys2Proof.Machine
end

