-- ==== Sys2Proof/Certificates/Slice0/Obligations.lean ====
section
/-! DEFINITION. The statements for the provers. Each says which rule of spec/ it formalises. In a statement about `exec`,
`s` is the state after the fetch advance: `s.pc` is pc0 + 2 (00_scope.md R11). -/

open Sys2Proof Sys2Proof.Machine

/-! ## Encoding -/

/-- R71, R74: decoding the word of an instruction, or its two bytes followed by anything, gives the instruction back.
Every `Instr` is well-formed, so the statement is for every operand value. -/
def Obligations.DecodeOfEncodedInstruction : Prop :=
  ∀ (i : Instr) (rest : List Byte),
    decodeWord (encode i) = some i ∧ decode (encodeBytes i ++ rest) = .ok (i, rest)

/-- R73, R74: a word that decodes is the word of the instruction it decodes to: no bit of it is dropped. -/
def Obligations.EncodeOfDecodedWord : Prop :=
  ∀ (w : Word) (i : Instr), decodeWord w = some i → encode i = w

/-- R73: decoding is by exact match: a word that decodes matches the row of its instruction and no other row of R74,
and a word that is UNKNOWN matches no row. The sub-opcode numbers of 8xyN and Fx are general knowledge (log entry
16). -/
def Obligations.DecodingIsExactMatchOnTheMap : Prop :=
  ∀ w : Word,
    (∀ i, decodeWord w = some i →
      i.row ∈ opcodeMap ∧ i.row.covers w = true ∧ ∀ r ∈ opcodeMap, r.covers w = true → r = i.row) ∧
    (decodeWord w = none → ∀ r ∈ opcodeMap, r.covers w = false)

/-- R76: the UNKNOWN words, family by family (the rule's counts are not stated here). Which words are malformed is
the spec's decision D18 (log entry 16). -/
def Obligations.UnknownWordsPerFamily : Prop :=
  ∀ w : Word, decodeWord w = none ↔
    (field w 15 12 = 0x0 ∧ w ≠ 0x00E0 ∧ w ≠ 0x00EE) ∨
    ((field w 15 12 = 0x5 ∨ field w 15 12 = 0x9) ∧ field w 3 0 ≠ 0) ∨
    (field w 15 12 = 0x8 ∧ field w 3 0 ∈ [0x8, 0x9, 0xA, 0xB, 0xC, 0xD, 0xF]) ∨
    (field w 15 12 = 0xE ∧ field w 7 0 ∉ [0x9E, 0xA1]) ∨
    (field w 15 12 = 0xF ∧ field w 7 0 ∉ [0x07, 0x0A, 0x15, 0x18, 0x1E, 0x29, 0x33, 0x55, 0x65])

/-- Words of 95_test_vectors.md, and of the examples of R163 and R165, decode to the instructions they stand for there. -/
def Obligations.TestVectorWordsDecode : Prop :=
  decodeWord 0x00EE = some .ret ∧ decodeWord 0x2ABC = some (.call 0xABC) ∧
  decodeWord 0x3A05 = some (.seByte 0xA 0x05) ∧ decodeWord 0x6A05 = some (.ldByte 0xA 0x05) ∧
  decodeWord 0x81F4 = some (.addReg 0x1 0xF) ∧ decodeWord 0x8126 = some (.shr 0x1 0x2) ∧
  decodeWord 0xD015 = some (.drw 0x0 0x1 5) ∧ decodeWord 0xE3A1 = some (.sknp 0x3) ∧
  decodeWord 0xF533 = some (.ldB 0x5) ∧ decodeWord 0xF265 = some (.ldVxMem 0x2) ∧
  decodeWord 0x5121 = none ∧ decodeWord 0x8128 = none ∧ decodeWord 0x0123 = none

/-! ## Fetch, step and frame -/

/-- R91: the fetch. The alignment check comes first, then the two bounds checks; the opcode is big-endian. -/
def Obligations.FetchChecksThenReadsBigEndian : Prop :=
  ∀ (p : Parameters) (s : State),
    (s.pc.toNat % 2 = 1 → p.allowOddPc = false → fetch p s = .error .misalignedFetch) ∧
    (s.pc.toNat % 2 = 0 ∨ p.allowOddPc = true →
      (s.pc.toNat > 0xFFF → fetch p s = .error (.memoryOutOfBounds s.pc.toNat)) ∧
      (s.pc.toNat ≤ 0xFFF → s.pc.toNat + 1 > 0xFFF → fetch p s = .error (.memoryOutOfBounds (s.pc.toNat + 1))) ∧
      (s.pc.toNat + 1 ≤ 0xFFF → ∃ op, fetch p s = .ok op ∧
        op.toNat = 256 * (s.mem.read s.pc.toNat).toNat + (s.mem.read (s.pc.toNat + 1)).toNat))

/-- R214: a fetch at an odd PC raises MisalignedFetch, code 4, when `ALLOW_ODD_PC` is false: nothing but STATUS
changes, and the record has no opcode. The fault is the spec's decision D6 (log entry 16). How the model writes a
fault (R33, R96, R220): log entry 2. -/
def Obligations.OddPcHaltsTheBlock : Prop :=
  FaultCause.misalignedFetch.code = 4 ∧
  ∀ (p : Parameters) (s : State), s.status = .running → s.pc.toNat % 2 = 1 → p.allowOddPc = false →
    engineStep p s = .next { s with status := .halted { cause := .misalignedFetch, pc0 := s.pc, op := none } }

/-- R94, R217: an UNKNOWN word in lenient mode emits one event with pc0 and the word, advances PC, and changes
nothing else. That diag is a list, oldest event first, is log entry 8. -/
def Obligations.UnknownWordIsALoggedNoOp : Prop :=
  ∀ (p : Parameters) (s : State) (op : Word), s.status = .running → p.strictConformance = false →
    fetch p s = .ok op → decodeWord op = none →
    engineStep p s = .next { s with pc := s.pc + 2, diag := s.diag ++ [{ pc0 := s.pc, op := op }] }

/-- R95, R216: an UNKNOWN word in strict mode raises UnknownOpcode, code 6, with pc0 and the word. That the fault is
a next state with STATUS Halted and this record (R33, R96, R220) is log entry 2. -/
def Obligations.UnknownWordIsFatalInStrictMode : Prop :=
  FaultCause.unknownOpcode.code = 6 ∧
  ∀ (p : Parameters) (s : State) (op : Word), s.status = .running → p.strictConformance = true →
    fetch p s = .ok op → decodeWord op = none →
    engineStep p s = .next { s with status := .halted { cause := .unknownOpcode, pc0 := s.pc, op := some op } }

/-- R90, R257: when the two bytes at PC decode to `i`, a step of the machine runs `exec i` on the state with PC past the
instruction, then ticks the timers and refreshes the keys. And whatever the parameters, so at an odd PC too when
`ALLOW_ODD_PC` is true, the engine's step on a fetched opcode that decodes to `i` is `exec i` on that state. That a step
of the model is a whole frame is log entry 1. -/
def Obligations.StepRunsTheDecodedInstruction : Prop :=
  (∀ (s : State) (i : Instr), s.status = .running → s.pc.toNat % 2 = 0 → s.pc.toNat + 1 ≤ 0xFFF →
    decodeWord (wordOfBytes (s.mem.read s.pc.toNat) (s.mem.read (s.pc.toNat + 1))) = some i →
    step s =
      match exec i { s with pc := s.pc + 2 } with
      | .next t => .next (refreshKeys (tick t))
      | .fault r => .fault r
      | .refused r => .refused r) ∧
  ∀ (p : Parameters) (s : State) (op : Word) (i : Instr), s.status = .running → fetch p s = .ok op →
    decodeWord op = some i → engineStep p s = exec i { s with pc := s.pc + 2 }

/-- R33, R90, R225: a halted block ignores the step and the tick, and no frame of it runs, so it stays as it is.
That no frame runs is log entry 14. -/
def Obligations.HaltedBlockNeverChanges : Prop :=
  ∀ (p : Parameters) (s : State) (f : FaultRecord), s.status = .halted f →
    engineStep p s = .next s ∧ tick s = s ∧ step s = .next s

/-- R97 (no step is undefined): every instruction, in every state, and every step answers a next state. That a fault
of the block is a next state is log entry 2. -/
def Obligations.EveryStepAnswersANextState : Prop :=
  (∀ (i : Instr) (s : State), ∃ t, exec i s = .next t) ∧ ∀ s : State, ∃ t, step s = .next t

/-- R91, R96, R213, R220: a step of a running block either fetched an opcode and leaves the block running, or changes
STATUS alone: to a record of pc0, of the cause of the fetch fault and no opcode when the fetch faulted, and else to a
record of pc0 and of the opcode. So every fetch fault halts the block. How the model writes a fault: log entries 2 and
10. -/
def Obligations.FaultsArePrecise : Prop :=
  ∀ (p : Parameters) (s t : State), s.status = .running → engineStep p s = .next t →
    (t.status = .running ∧ ∃ op, fetch p s = .ok op) ∨
    (∃ cause, fetch p s = .error cause ∧
      t = { s with status := .halted { cause := cause, pc0 := s.pc, op := none } }) ∨
    (∃ op cause, fetch p s = .ok op ∧
      t = { s with status := .halted { cause := cause, pc0 := s.pc, op := some op } })

/-- Every step keeps the invariant `Inv` (R25, R26, R51, R220 and the canonical form of MEM). It rests on the default
`ALLOW_ODD_PC` = false of log entry 4. -/
def Obligations.StepKeepsTheMachineInvariant : Prop :=
  ∀ s t : State, Inv s → step s = .next t → Inv t

/-- The state after reset meets the invariant. -/
def Obligations.ResetMeetsTheMachineInvariant : Prop := Inv State.reset

/-- The model's `withFetchWord` (log entry 11): the next step fetches exactly the given word, in every state. -/
def Obligations.FetchWordIsFetchedNext : Prop :=
  ∀ (s : State) (w : Nat), s.mem.wf = true →
    fetch parameters (s.withFetchWord 16 w) = .ok (BitVec.ofNat 16 w) ∧ (s.withFetchWord 16 w).status = .running

/-! ## Timers, ports and the frame -/

/-- R225: a tick of a running block counts each timer down by 1, a timer at 0 stays at 0, and nothing else changes;
a halted block does not tick; and the frame's tick follows its step, whatever the step was. The frame: log entry 1. -/
def Obligations.TickCountsBothTimersDown : Prop :=
  ∀ s : State,
    (s.status = .running → ∃ t, tick s = t ∧ t.dt.toNat = s.dt.toNat - 1 ∧ t.st.toNat = s.st.toNat - 1 ∧
      t = { s with dt := t.dt, st := t.st }) ∧
    (∀ f, s.status = .halted f → tick s = s) ∧
    (s.status = .running → ∀ t, engineStep parameters s = .next t → step s = .next (refreshKeys (tick t)))

/-- R260: a value v > 0 written to DT by Fx15 reads back as v - 1 through Fy07 in the next step, and a 0 as 0. The
spec marks that rule as its own inference, from R225 and R257; it needs the frame of log entry 1. -/
def Obligations.DelayTimerReadsBackOneLess : Prop :=
  ∀ (s : State) (x y : Reg), s.status = .running → s.pc.toNat % 2 = 0 → s.pc.toNat + 3 ≤ 0xFFF →
    decodeWord (wordOfBytes (s.mem.read s.pc.toNat) (s.mem.read (s.pc.toNat + 1))) = some (.ldDtVx x) →
    decodeWord (wordOfBytes (s.mem.read (s.pc.toNat + 2)) (s.mem.read (s.pc.toNat + 3))) = some (.ldVxDt y) →
    ∃ t u, step s = .next t ∧ step t = .next u ∧ u.v[y.val].toNat = s.v[x.val].toNat - 1

/-- R37: a key write sets its own cell of the latch and nothing else. -/
def Obligations.KeyWriteSetsOneCell : Prop :=
  ∀ (s : State) (k : Fin 16) (pressed : Bool),
    (keyWrite s { key := k, pressed := pressed }).key[k.val] = pressed ∧
    (∀ j : Fin 16, j ≠ k → (keyWrite s { key := k, pressed := pressed }).key[j.val] = s.key[j.val]) ∧
    keyWrite s { key := k, pressed := pressed } = { s with key := (keyWrite s { key := k, pressed := pressed }).key }

/-- R60, R261: the key writes that are still to come do not reach the step of the frame: two machines that differ
only in them differ after a frame at most in the latch, and in the writes still to come. The spec marks that rule as
its own inference, from R257; the writes to come are a field of the model (log entry 7). -/
def Obligations.ComingKeyWritesDoNotReachTheStep : Prop :=
  ∀ (s t t' : State) (script : List (List KeyWrite)),
    step s = .next t → step { s with keyInput := script } = .next t' →
    t' = { t with key := t'.key, keyInput := t'.keyInput }

/-- R31: the engine never writes the latch, nor the writes still to come. The writes to come: log entry 7. -/
def Obligations.EngineNeverWritesTheKeyLatch : Prop :=
  ∀ (p : Parameters) (s t : State), engineStep p s = .next t → t.key = s.key ∧ t.keyInput = s.keyInput

/-- R38, R227: the flat array of the display port is row-major, and `sound_active` is ST != 0. The stream of events:
log entry 8. -/
def Obligations.OutputPortsReadTheState : Prop :=
  ∀ s : State,
    (∀ (y : Fin 32) (x : Fin 64) (h : y.val * 64 + x.val < 2048),
      (displayRead s)[y.val * 64 + x.val] = s.disp.pixel { row := y, col := x }) ∧
    (soundActive s = true ↔ s.st.toNat ≠ 0) ∧ statusOut s = s.status ∧ diagOut s = s.diag

/-! ## Memory, reset and the program load -/

/-- R51: the memory primitives raise MemoryOutOfBounds with the address above 0xFFF, and otherwise read the cell and
write exactly the cell. -/
def Obligations.MemoryPrimitivesCheckTheAddress : Prop :=
  ∀ (m : Memory) (a : Nat) (w : Byte),
    (a > 0xFFF → memRead m a = .error (.memoryOutOfBounds a) ∧ memWrite m a w = .error (.memoryOutOfBounds a)) ∧
    (a ≤ 0xFFF → memRead m a = .ok (m.read a)) ∧
    (a ≤ 0xFFF → m.wf = true →
      ∃ m', memWrite m a w = .ok m' ∧ m'.read a = w ∧ ∀ b, b ≠ a → m'.read b = m.read b)

/-- The model's canonical form: two memories in it that agree on every cell of the space are equal data. -/
def Obligations.EqualCellsMakeEqualMemories : Prop :=
  ∀ m n : Memory, m.wf = true → n.wf = true → (∀ a, a < 4096 → m.read a = n.read a) → m = n

/-- R40: the values after reset, the font apart. All but those of MEM and PC are the spec's own decision D3 (log entry
9); the three port fields are the model's and are not stated. -/
def Obligations.ResetGivesTheStatedValues : Prop :=
  State.reset.pc = 0x0200 ∧ State.reset.i = 0x0000 ∧ State.reset.sp.val = 0 ∧ State.reset.status = .running ∧
  State.reset.dt = 0 ∧ State.reset.st = 0 ∧
  (∀ r : Reg, State.reset.v[r.val] = 0x00) ∧ (∀ j : Fin 16, State.reset.stack[j.val] = 0x0000) ∧
  (∀ p : Pixel, State.reset.disp.pixel p = false) ∧ (∀ k : Fin 16, State.reset.key[k.val] = false) ∧
  (∀ a, 0x050 ≤ a → State.reset.mem.read a = 0x00)

/-- R250, R252: creation with any FONTSET of 80 bytes copies it byte for byte to 0x000-0x04F over zeroed memory;
with the default font it gives the reset state. The default table: log entry 5. -/
def Obligations.FontIsLoadedByteForByte : Prop :=
  (∀ (font : Vector Byte 80) (a : Nat),
    (State.create font).mem.read a = if h : a < 80 then font[a] else 0x00) ∧
  ∀ font : Vector Byte 80, font.toList = fontset → State.create font = State.reset

/-- R252: after initialisation glyph d occupies MEM[5*d .. 5*d+4], for each of the sixteen digits of the default
table. The table is general knowledge (log entry 5). -/
def Obligations.DefaultGlyphsStandAtFiveTimesTheDigit : Prop :=
  State.reset.mem.readBytes (5 * 0x0) 5 = [0xF0, 0x90, 0x90, 0x90, 0xF0] ∧
  State.reset.mem.readBytes (5 * 0x1) 5 = [0x20, 0x60, 0x20, 0x20, 0x70] ∧
  State.reset.mem.readBytes (5 * 0x2) 5 = [0xF0, 0x10, 0xF0, 0x80, 0xF0] ∧
  State.reset.mem.readBytes (5 * 0x3) 5 = [0xF0, 0x10, 0xF0, 0x10, 0xF0] ∧
  State.reset.mem.readBytes (5 * 0x4) 5 = [0x90, 0x90, 0xF0, 0x10, 0x10] ∧
  State.reset.mem.readBytes (5 * 0x5) 5 = [0xF0, 0x80, 0xF0, 0x10, 0xF0] ∧
  State.reset.mem.readBytes (5 * 0x6) 5 = [0xF0, 0x80, 0xF0, 0x90, 0xF0] ∧
  State.reset.mem.readBytes (5 * 0x7) 5 = [0xF0, 0x10, 0x20, 0x40, 0x40] ∧
  State.reset.mem.readBytes (5 * 0x8) 5 = [0xF0, 0x90, 0xF0, 0x90, 0xF0] ∧
  State.reset.mem.readBytes (5 * 0x9) 5 = [0xF0, 0x90, 0xF0, 0x10, 0xF0] ∧
  State.reset.mem.readBytes (5 * 0xA) 5 = [0xF0, 0x90, 0xF0, 0x90, 0x90] ∧
  State.reset.mem.readBytes (5 * 0xB) 5 = [0xE0, 0x90, 0xE0, 0x90, 0xE0] ∧
  State.reset.mem.readBytes (5 * 0xC) 5 = [0xF0, 0x80, 0x80, 0x80, 0xF0] ∧
  State.reset.mem.readBytes (5 * 0xD) 5 = [0xE0, 0x90, 0x90, 0x90, 0xE0] ∧
  State.reset.mem.readBytes (5 * 0xE) 5 = [0xF0, 0x80, 0xF0, 0x80, 0xF0] ∧
  State.reset.mem.readBytes (5 * 0xF) 5 = [0xF0, 0x80, 0xF0, 0x80, 0x80]

/-- R253: byte i of an image goes to 0x200 + i; every other byte keeps its value, and nothing but MEM changes. -/
def Obligations.ImageIsLoadedAt0x200 : Prop :=
  ∀ (s : State) (image : List Byte), s.mem.wf = true → image.length ≤ 3584 →
    (∀ k (h : k < image.length), (s.loadImage image).mem.read (0x200 + k) = image[k]) ∧
    (∀ a, a < 0x200 ∨ 0x200 + image.length ≤ a → (s.loadImage image).mem.read a = s.mem.read a) ∧
    s.loadImage image = { s with mem := (s.loadImage image).mem } ∧ (s.loadImage image).mem.wf = true

/-- R254: a load fails when the file cannot be opened or the image is longer than 3584 bytes; an image of up to exactly
the maximum size succeeds and sets PC = 0x200. That an empty image succeeds too is the model's choice (log entry 13). -/
def Obligations.LoadFailsExactlyWhenTooLarge : Prop :=
  ∀ font : Vector Byte 80,
    createMachine font none = .error .cannotOpen ∧
    ∀ image : List Byte,
      (image.length > 3584 → createMachine font (some image) = .error .tooLarge) ∧
      (image.length ≤ 3584 → ∃ s, createMachine font (some image) = .ok s ∧
        s = (State.create font).loadImage image ∧ s.pc = 0x0200 ∧ s.status = .running)

/-- R62: a store by Fx55 over the very next instruction is fetched as written. -/
def Obligations.StoreIsSeenByTheNextFetch : Prop :=
  ∀ (s : State) (x : Reg), s.mem.wf = true → s.status = .running → s.pc.toNat % 2 = 0 → s.pc.toNat + 3 ≤ 0xFFF →
    decodeWord (wordOfBytes (s.mem.read s.pc.toNat) (s.mem.read (s.pc.toNat + 1))) = some (.ldMemVx x) →
    1 ≤ x.val → s.i.toNat = s.pc.toNat + 2 → s.i.toNat + x.val ≤ 0xFFF →
    ∃ t, step s = .next t ∧ fetch parameters t = .ok (wordOfBytes s.v[0] s.v[1])

/-! ## Control transfer -/

/-- R111, R117: JP and JP V0 set PC to nnn, and to nnn + V0 with no wrap and no mask; nothing else changes. -/
def Obligations.JumpsSetThePc : Prop :=
  ∀ (nnn : Addr) (s : State),
    decodeWord (BitVec.ofNat 16 (0x1000 + nnn.toNat)) = some (.jp nnn) ∧
    decodeWord (BitVec.ofNat 16 (0xB000 + nnn.toNat)) = some (.jpV0 nnn) ∧
    (∃ t, exec (.jp nnn) s = .next t ∧ t.pc.toNat = nnn.toNat ∧ t = { s with pc := t.pc }) ∧
    (∃ t, exec (.jpV0 nnn) s = .next t ∧ t.pc.toNat = nnn.toNat + s.v[0].toNat ∧ t = { s with pc := t.pc })

/-- R112: CALL pushes PC, which is pc0 + 2, and jumps to nnn; with SP = 16 it raises StackOverflow and pushes
nothing. How the model writes a fault (R33, R96, R220): log entries 2 and 10. -/
def Obligations.CallPushesTheReturnAddress : Prop :=
  ∀ (nnn : Addr) (s : State),
    decodeWord (BitVec.ofNat 16 (0x2000 + nnn.toNat)) = some (.call nnn) ∧
    (∀ h : s.sp.val < 16, ∃ t, exec (.call nnn) s = .next t ∧ t.sp.val = s.sp.val + 1 ∧ t.stack[s.sp.val] = s.pc ∧
      (∀ j : Fin 16, j.val ≠ s.sp.val → t.stack[j.val] = s.stack[j.val]) ∧ t.pc.toNat = nnn.toNat ∧
      t = { s with sp := t.sp, stack := t.stack, pc := t.pc }) ∧
    (s.sp.val = 16 → exec (.call nnn) s = .next (faulted (.call nnn) .stackOverflow s))

/-- R110, R212: RET pops PC from the stack and leaves the entry there; with SP = 0 it raises StackUnderflow, code 2.
How the model writes a fault (R33, R96, R220): log entries 2 and 10. -/
def Obligations.RetPopsTheReturnAddress : Prop :=
  FaultCause.stackUnderflow.code = 2 ∧ decodeWord 0x00EE = some .ret ∧
  ∀ s : State,
    (0 < s.sp.val → ∃ t, exec .ret s = .next t ∧ t.sp.val = s.sp.val - 1 ∧ t.pc = s.stack[s.sp.val - 1] ∧
      t = { s with sp := t.sp, pc := t.pc }) ∧
    (s.sp.val = 0 → exec .ret s = .next (faulted .ret .stackUnderflow s))

/-- R211: from an empty stack sixteen nested calls succeed, and the seventeenth raises StackOverflow, code 1. How
the model writes a fault (R33, R96, R220): log entries 2 and 10. -/
def Obligations.SixteenCallsNestTheNextOverflows : Prop :=
  FaultCause.stackOverflow.code = 1 ∧
  ∀ (targets : List Addr) (last : Addr) (s : State), s.sp.val = 0 → targets.length = 16 →
    ∃ t, execAll (targets.map Instr.call) s = .next t ∧ t.sp.val = 16 ∧ t.status = s.status ∧
      exec (.call last) t = .next (faulted (.call last) .stackOverflow t)

/-- R118: a RET that finds the stack as a CALL left it, whatever ran in between, restores PC to pc0 + 2 of the CALL
and the stack pointer to what it was. The spec marks that rule as its own inference, from R110 and R112. -/
def Obligations.RetUndoesCall : Prop :=
  ∀ (nnn : Addr) (s : State), s.sp.val < 16 →
    ∃ t, exec (.call nnn) s = .next t ∧
      ∀ u : State, u.sp = t.sp → u.stack = t.stack → exec .ret u = .next { u with pc := s.pc, sp := s.sp }

/-- R113, R114, R115, R116: the conditional skips move PC by a further 2 when their condition holds, and change nothing
else. -/
def Obligations.SkipsFollowTheirConditions : Prop :=
  ∀ (x y : Reg) (kk : Byte) (s : State),
    decodeWord (BitVec.ofNat 16 (0x3000 + 0x100 * x.val + kk.toNat)) = some (.seByte x kk) ∧
    decodeWord (BitVec.ofNat 16 (0x4000 + 0x100 * x.val + kk.toNat)) = some (.sneByte x kk) ∧
    decodeWord (BitVec.ofNat 16 (0x5000 + 0x100 * x.val + 0x10 * y.val)) = some (.seReg x y) ∧
    decodeWord (BitVec.ofNat 16 (0x9000 + 0x100 * x.val + 0x10 * y.val)) = some (.sneReg x y) ∧
    exec (.seByte x kk) s = .next { s with pc := if s.v[x.val] = kk then s.pc + 2 else s.pc } ∧
    exec (.sneByte x kk) s = .next { s with pc := if s.v[x.val] ≠ kk then s.pc + 2 else s.pc } ∧
    exec (.seReg x y) s = .next { s with pc := if s.v[x.val] = s.v[y.val] then s.pc + 2 else s.pc } ∧
    exec (.sneReg x y) s = .next { s with pc := if s.v[x.val] ≠ s.v[y.val] then s.pc + 2 else s.pc }

/-! ## Register loads, ALU and random -/

/-- R130, R131: LD Vx, byte loads kk; ADD Vx, byte adds modulo 256. No other register changes, VF included. -/
def Obligations.ImmediateLoadAndAddLeaveVF : Prop :=
  ∀ (x : Reg) (kk : Byte) (s : State),
    decodeWord (BitVec.ofNat 16 (0x6000 + 0x100 * x.val + kk.toNat)) = some (.ldByte x kk) ∧
    decodeWord (BitVec.ofNat 16 (0x7000 + 0x100 * x.val + kk.toNat)) = some (.addByte x kk) ∧
    (∃ t, exec (.ldByte x kk) s = .next t ∧ t.v[x.val] = kk ∧
      (∀ r : Reg, r ≠ x → t.v[r.val] = s.v[r.val]) ∧ t = { s with v := t.v }) ∧
    (∃ t, exec (.addByte x kk) s = .next t ∧ t.v[x.val].toNat = (s.v[x.val].toNat + kk.toNat) % 256 ∧
      (∀ r : Reg, r ≠ x → t.v[r.val] = s.v[r.val]) ∧ t = { s with v := t.v })

/-- R132, R133, R134, R135: the copy and the bitwise operations write Vx alone, and touch VF only when it is Vx.
That VF is unchanged is the spec's decision D13, and LD Vx, Vy is general knowledge (log entry 16). -/
def Obligations.CopyAndLogicWriteOnlyVx : Prop :=
  ∀ (x y : Reg) (s : State),
    (∃ t, exec (.ldReg x y) s = .next t ∧ t.v[x.val] = s.v[y.val] ∧
      (∀ r : Reg, r ≠ x → t.v[r.val] = s.v[r.val]) ∧ t = { s with v := t.v }) ∧
    (∃ t, exec (.orReg x y) s = .next t ∧
      (∀ k, t.v[x.val].getLsbD k = (s.v[x.val].getLsbD k || s.v[y.val].getLsbD k)) ∧
      (∀ r : Reg, r ≠ x → t.v[r.val] = s.v[r.val]) ∧ t = { s with v := t.v }) ∧
    (∃ t, exec (.andReg x y) s = .next t ∧
      (∀ k, t.v[x.val].getLsbD k = (s.v[x.val].getLsbD k && s.v[y.val].getLsbD k)) ∧
      (∀ r : Reg, r ≠ x → t.v[r.val] = s.v[r.val]) ∧ t = { s with v := t.v }) ∧
    (∃ t, exec (.xorReg x y) s = .next t ∧
      (∀ k, t.v[x.val].getLsbD k = (s.v[x.val].getLsbD k ^^ s.v[y.val].getLsbD k)) ∧
      (∀ r : Reg, r ≠ x → t.v[r.val] = s.v[r.val]) ∧ t = { s with v := t.v })

/-- R136, R143: ADD Vx, Vy. VF is the carry, also when VF is Vx; operands are read before any write, so also when VF
is Vy. The flag and its order are the spec's decision D11 and passage G3 (log entry 16). -/
def Obligations.AddWritesSumThenCarry : Prop :=
  ∀ (x y : Reg) (s : State), ∃ t, exec (.addReg x y) s = .next t ∧
    (x ≠ VF → t.v[x.val].toNat = (s.v[x.val].toNat + s.v[y.val].toNat) % 256) ∧
    t.v[VF.val].toNat = (if s.v[x.val].toNat + s.v[y.val].toNat > 0xFF then 1 else 0) ∧
    (∀ r : Reg, r ≠ x → r ≠ VF → t.v[r.val] = s.v[r.val]) ∧ t = { s with v := t.v }

/-- R137, R139, R143: SUB computes Vx - Vy and SUBN Vy - Vx, modulo 256; VF is 1 when no borrow is needed, so also
for equal operands. The spec's decisions D11 and D12 (log entry 16). -/
def Obligations.SubtractWritesDifferenceThenNoBorrow : Prop :=
  ∀ (x y : Reg) (s : State),
    (∃ t, exec (.sub x y) s = .next t ∧
      (x ≠ VF → (t.v[x.val].toNat : Int) = ((s.v[x.val].toNat : Int) - s.v[y.val].toNat) % 256) ∧
      t.v[VF.val].toNat = (if s.v[x.val].toNat ≥ s.v[y.val].toNat then 1 else 0) ∧
      (∀ r : Reg, r ≠ x → r ≠ VF → t.v[r.val] = s.v[r.val]) ∧ t = { s with v := t.v }) ∧
    (∃ t, exec (.subn x y) s = .next t ∧
      (x ≠ VF → (t.v[x.val].toNat : Int) = ((s.v[y.val].toNat : Int) - s.v[x.val].toNat) % 256) ∧
      t.v[VF.val].toNat = (if s.v[y.val].toNat ≥ s.v[x.val].toNat then 1 else 0) ∧
      (∀ r : Reg, r ≠ x → r ≠ VF → t.v[r.val] = s.v[r.val]) ∧ t = { s with v := t.v })

/-- R138, R140, R143: the shifts shift Vx by one whatever y is, and VF is the bit shifted out. The spec's decisions
D10 and D11 (log entry 16). -/
def Obligations.ShiftsShiftVxAndIgnoreVy : Prop :=
  ∀ (x y : Reg) (s : State),
    (∃ t, exec (.shr x y) s = .next t ∧
      (x ≠ VF → ∀ k, t.v[x.val].getLsbD k = s.v[x.val].getLsbD (k + 1)) ∧
      t.v[VF.val].toNat = (if s.v[x.val].getLsbD 0 then 1 else 0) ∧
      (∀ r : Reg, r ≠ x → r ≠ VF → t.v[r.val] = s.v[r.val]) ∧ t = { s with v := t.v }) ∧
    (∃ t, exec (.shl x y) s = .next t ∧
      (x ≠ VF → t.v[x.val].getLsbD 0 = false ∧ ∀ k, k < 7 → t.v[x.val].getLsbD (k + 1) = s.v[x.val].getLsbD k) ∧
      t.v[VF.val].toNat = (if s.v[x.val].getLsbD 7 then 1 else 0) ∧
      (∀ r : Reg, r ≠ x → r ≠ VF → t.v[r.val] = s.v[r.val]) ∧ t = { s with v := t.v })

/-- R141: RND loads r AND kk, whatever byte r = `Config.rnd s.draws` the random input supplies (log entry 6). The count
of draws is the model's own. -/
def Obligations.RandomByteIsMasked : Prop :=
  ∀ (x : Reg) (kk : Byte) (s : State),
    decodeWord (BitVec.ofNat 16 (0xC000 + 0x100 * x.val + kk.toNat)) = some (.rnd x kk) ∧
    ∃ t, exec (.rnd x kk) s = .next t ∧
      (∀ k, t.v[x.val].getLsbD k = ((Config.rnd s.draws).getLsbD k && kk.getLsbD k)) ∧
      (∀ j : Reg, j ≠ x → t.v[j.val] = s.v[j.val]) ∧ t = { s with v := t.v, draws := s.draws + 1 }

/-- R230: no instruction but RND reads the random input, or counts a draw. The count of draws is the model's own
(log entry 6): it says which byte of the input comes next. -/
def Obligations.OnlyRndReadsTheRandomInput : Prop :=
  ∀ (i : Instr) (s t : State) (draws : Nat), (∀ x kk, i ≠ .rnd x kk) → exec i s = .next t →
    t.draws = s.draws ∧ exec i { s with draws := draws } = .next { t with draws := draws }

/-! ## Index register and memory blocks -/

/-- R160: LD I, addr. -/
def Obligations.LoadIndexImmediate : Prop :=
  ∀ (nnn : Addr) (s : State),
    decodeWord (BitVec.ofNat 16 (0xA000 + nnn.toNat)) = some (.ldI nnn) ∧
    ∃ t, exec (.ldI nnn) s = .next t ∧ t.i.toNat = nnn.toNat ∧ t = { s with i := t.i }

/-- R161, R162: ADD I, Vx adds modulo 2^16 and writes no flag; LD F, Vx sets I to 5 * Vx, unmasked. The spec's
decisions D8 and D16 (log entry 16). -/
def Obligations.AddIndexAndGlyphAddress : Prop :=
  ∀ (x : Reg) (s : State),
    (∃ t, exec (.addI x) s = .next t ∧ t.i.toNat = (s.i.toNat + s.v[x.val].toNat) % 65536 ∧ t = { s with i := t.i }) ∧
    (∃ t, exec (.ldF x) s = .next t ∧ t.i.toNat = 5 * s.v[x.val].toNat ∧ t = { s with i := t.i })

/-- R163: LD B, Vx stores the hundreds, tens and ones of Vx at I, I+1, I+2, and no other byte. -/
def Obligations.BcdDigitsAreStored : Prop :=
  ∀ (x : Reg) (s : State), s.mem.wf = true → s.i.toNat + 2 ≤ 0xFFF →
    ∃ t, exec (.ldB x) s = .next t ∧
      (t.mem.read s.base).toNat = s.v[x.val].toNat / 100 ∧
      (t.mem.read (s.base + 1)).toNat = s.v[x.val].toNat / 10 % 10 ∧
      (t.mem.read (s.base + 2)).toNat = s.v[x.val].toNat % 10 ∧
      (∀ a, a = s.base → ∀ b, b < a ∨ a + 3 ≤ b → t.mem.read b = s.mem.read b) ∧ t = { s with mem := t.mem }

/-- R164: LD [I], Vx stores V0..Vx at I .. I+x, and no other byte; I is unchanged. -/
def Obligations.RegistersAreStoredFromI : Prop :=
  ∀ (x : Reg) (s : State), s.mem.wf = true → s.i.toNat + x.val ≤ 0xFFF →
    ∃ t, exec (.ldMemVx x) s = .next t ∧
      (∀ r : Reg, r ≤ x → t.mem.read (s.base + r.val) = s.v[r.val]) ∧
      (∀ a, a = s.base → ∀ b, b < a ∨ a + (x.val + 1) ≤ b → t.mem.read b = s.mem.read b) ∧ t = { s with mem := t.mem }

/-- R165: LD Vx, [I] loads V0..Vx from I .. I+x, and no other register; I and memory are unchanged. -/
def Obligations.RegistersAreLoadedFromI : Prop :=
  ∀ (x : Reg) (s : State), s.i.toNat + x.val ≤ 0xFFF →
    ∃ t, exec (.ldVxMem x) s = .next t ∧
      (∀ r : Reg, r ≤ x → t.v[r.val] = s.mem.read (s.base + r.val)) ∧
      (∀ r : Reg, x < r → t.v[r.val] = s.v[r.val]) ∧ t = { s with v := t.v }

/-- R56: when one of the data addresses I, I+1, ... of an instruction is above 0xFFF, the instruction raises
MemoryOutOfBounds, code 3, for the lowest such address and writes nothing. How the model writes a fault (R33, R96,
R220): log entries 2 and 10. -/
def Obligations.BlockAccessIsAllOrNothing : Prop :=
  (∀ a, (FaultCause.memoryOutOfBounds a).code = 3) ∧
  ∀ (i : Instr) (s : State) (k : Nat), k < dataBytes i → s.i.toNat + k > 0xFFF →
    (∀ j, j < k → s.i.toNat + j ≤ 0xFFF) →
    exec i s = .next (faulted i (.memoryOutOfBounds (s.i.toNat + k)) s)

/-! ## Display -/

/-- R180: CLS clears every pixel and changes nothing else. -/
def Obligations.ClsClearsEveryPixel : Prop :=
  decodeWord 0x00E0 = some .cls ∧
  ∀ s : State, ∃ t, exec .cls s = .next t ∧ (∀ p : Pixel, t.disp.pixel p = false) ∧ t = { s with disp := t.disp }

/-- R181: DRW flips exactly the pixels its sprite covers, each coordinate wrapped; VF is 1 if a covered pixel was
set, and else 0, and is always written; no other register and nothing else changes. With n = 0 no pixel is covered.
When an address is above 0xFFF it raises MemoryOutOfBounds and draws nothing. The spec's decisions D11 and D21 and
passage G4 (log entry 16). How the model writes a fault (R33, R96, R220): log entries 2 and 10. -/
def Obligations.DrwXorsThePixelsTheSpriteCovers : Prop :=
  ∀ (x y : Reg) (n : Fin 16) (s : State),
    decodeWord (BitVec.ofNat 16 (0xD000 + 0x100 * x.val + 0x10 * y.val + n.val)) = some (.drw x y n) ∧
    (n.val = 0 ∨ s.i.toNat + n.val - 1 ≤ 0xFFF → ∃ t, exec (.drw x y n) s = .next t ∧
      (∀ p, SpriteCovers s x y n.val p → t.disp.pixel p = !s.disp.pixel p) ∧
      (∀ p, ¬ SpriteCovers s x y n.val p → t.disp.pixel p = s.disp.pixel p) ∧
      ((∃ p, SpriteCovers s x y n.val p ∧ s.disp.pixel p = true) → t.v[VF.val] = 0x01) ∧
      ((∀ p, SpriteCovers s x y n.val p → s.disp.pixel p = false) → t.v[VF.val] = 0x00) ∧
      (∀ r : Reg, r ≠ VF → t.v[r.val] = s.v[r.val]) ∧ t = { s with disp := t.disp, v := t.v }) ∧
    (0 < n.val → s.i.toNat + n.val - 1 > 0xFFF →
      exec (.drw x y n) s = .next (faulted (.drw x y n) (.memoryOutOfBounds (max s.i.toNat 0x1000)) s))

/-- 95_test_vectors.md S8: drawing the same sprite again at the same place restores the display. The second VF is 1
exactly when the first draw set a pixel that was clear: log entry 17 says where the corner case of R181 differs. -/
def Obligations.DrawingTwiceRestoresTheDisplay : Prop :=
  ∀ (x y : Reg) (n : Fin 16) (s : State), n.val = 0 ∨ s.i.toNat + n.val - 1 ≤ 0xFFF →
    ∃ t, exec (.drw x y n) s = .next t ∧
      ∀ u : State, u.disp = t.disp → u.mem = s.mem → u.i = s.i → u.v[x.val] = s.v[x.val] → u.v[y.val] = s.v[y.val] →
        ∃ w, exec (.drw x y n) u = .next w ∧ w.disp = s.disp ∧
          (w.v[VF.val] = 0x01 ↔ ∃ p, SpriteCovers s x y n.val p ∧ s.disp.pixel p = false)

/-- R184: the display changes only in a step whose instruction is CLS or DRW, whatever the parameters, and neither a
tick nor a key write changes it. -/
def Obligations.OnlyClsAndDrwChangeTheDisplay : Prop :=
  (∀ (p : Parameters) (s t : State), engineStep p s = .next t → t.disp ≠ s.disp →
    ∃ op, fetch p s = .ok op ∧
      (decodeWord op = some .cls ∨ ∃ x y n, decodeWord op = some (.drw x y n))) ∧
  ∀ (s : State) (w : KeyWrite), (tick s).disp = s.disp ∧ (keyWrite s w).disp = s.disp

/-! ## Key latch and timers -/

/-- R190, R191, R215: SKP and SKNP skip on the key that V[x] names; above 0x0F they raise KeyIndexOutOfRange, code
5, with the value of V[x]. The fault is the spec's decision D17 (log entry 16). How the model writes a fault (R33,
R96, R220): log entries 2 and 10. -/
def Obligations.KeySkipsReadTheLatch : Prop :=
  (∀ b, (FaultCause.keyIndexOutOfRange b).code = 5) ∧
  ∀ (x : Reg) (s : State),
    decodeWord (BitVec.ofNat 16 (0xE09E + 0x100 * x.val)) = some (.skp x) ∧
    decodeWord (BitVec.ofNat 16 (0xE0A1 + 0x100 * x.val)) = some (.sknp x) ∧
    (∀ k : Fin 16, s.v[x.val].toNat = k.val →
      exec (.skp x) s = .next { s with pc := if s.key[k.val] = true then s.pc + 2 else s.pc } ∧
      exec (.sknp x) s = .next { s with pc := if s.key[k.val] = false then s.pc + 2 else s.pc }) ∧
    (s.v[x.val].toNat > 0x0F →
      exec (.skp x) s = .next (faulted (.skp x) (.keyIndexOutOfRange s.v[x.val]) s) ∧
      exec (.sknp x) s = .next (faulted (.sknp x) (.keyIndexOutOfRange s.v[x.val]) s))

/-- R192, R194, R195: the timer instructions copy between Vx and a timer, and change nothing else. -/
def Obligations.TimerInstructionsCopy : Prop :=
  ∀ (x : Reg) (s : State),
    (∃ t, exec (.ldVxDt x) s = .next t ∧ t.v[x.val] = s.dt ∧
      (∀ r : Reg, r ≠ x → t.v[r.val] = s.v[r.val]) ∧ t = { s with v := t.v }) ∧
    exec (.ldDtVx x) s = .next { s with dt := s.v[x.val] } ∧
    exec (.ldStVx x) s = .next { s with st := s.v[x.val] }

/-- R193: LD Vx, K loads the lowest pressed key; with no key pressed only PC changes, back to pc0. The instruction
and the choice of the key are the spec's decision D15 (log entry 16). -/
def Obligations.KeyWaitTakesTheLowestKey : Prop :=
  ∀ (x : Reg) (s : State),
    (∀ k : Fin 16, s.key[k.val] = true → (∀ j : Fin 16, j < k → s.key[j.val] = false) →
      ∃ t, exec (.ldVxK x) s = .next t ∧ t.v[x.val].toNat = k.val ∧
        (∀ r : Reg, r ≠ x → t.v[r.val] = s.v[r.val]) ∧ t = { s with v := t.v }) ∧
    ((∀ k : Fin 16, s.key[k.val] = false) → exec (.ldVxK x) s = .next { s with pc := s.pc - 2 })

/-- R262: a frame in which LD Vx, K waits leaves PC at the instruction, and the timers count down. The spec marks
that rule as its own inference, from R193 and R257; it needs the frame of log entry 1. -/
def Obligations.KeyWaitRepeatsWhileTimersTick : Prop :=
  ∀ (s : State) (x : Reg), s.status = .running → s.pc.toNat % 2 = 0 → s.pc.toNat + 1 ≤ 0xFFF →
    decodeWord (wordOfBytes (s.mem.read s.pc.toNat) (s.mem.read (s.pc.toNat + 1))) = some (.ldVxK x) →
    (∀ k : Fin 16, s.key[k.val] = false) →
    ∃ t, step s = .next t ∧ t.pc = s.pc ∧ t.v = s.v ∧ t.disp = s.disp ∧
      t.dt.toNat = s.dt.toNat - 1 ∧ t.st.toNat = s.st.toNat - 1

/-! ## What no other instruction writes -/

/-- R22: an instruction writes no general register but those of the table. The spec marks that rule as its own
inference, from the instruction rules. -/
def Obligations.RegistersWrittenAreThoseOfTheTable : Prop :=
  ∀ (i : Instr) (s t : State) (r : Reg), exec i s = .next t → r ∉ regsWritten i → t.v[r.val] = s.v[r.val]

/-- R24, R26, R28, R29, R50: I, the stack, the timers and MEM are written only by the instructions the rules name.
The key writes to come and the events are fields of the model (log entries 7 and 8). -/
def Obligations.SpecialRegistersHaveTheirOwnWriters : Prop :=
  ∀ (i : Instr) (s t : State), exec i s = .next t →
    (t.i ≠ s.i → (∃ nnn, i = .ldI nnn) ∨ (∃ x, i = .addI x) ∨ ∃ x, i = .ldF x) ∧
    (t.stack ≠ s.stack → ∃ nnn, i = .call nnn) ∧
    (t.sp ≠ s.sp → i = .ret ∨ ∃ nnn, i = .call nnn) ∧
    (t.dt ≠ s.dt → ∃ x, i = .ldDtVx x) ∧
    (t.st ≠ s.st → ∃ x, i = .ldStVx x) ∧
    (t.mem ≠ s.mem → (∃ x, i = .ldB x) ∨ ∃ x, i = .ldMemVx x) ∧
    t.key = s.key ∧ t.keyInput = s.keyInput ∧ t.diag = s.diag

/-! ## The key refresh -/

/-- R257 item 3, R261: a frame of a running block applies the key writes of its own list, in order, after the step
and the tick, and drops the list; the last write to a key is what the step of the next frame sees, here through SKP.
R261 is marked by the spec as its own inference; the frame is log entry 1, the lists are log entry 7. -/
def Obligations.KeyRefreshAppliesTheWritesInOrder : Prop :=
  ∀ s t : State, s.status = .running → step s = .next t →
    (∃ u, engineStep parameters s = .next u ∧ t = { tick u with key := t.key, keyInput := t.keyInput }) ∧
    (s.keyInput = [] → t.key = s.key ∧ t.keyInput = []) ∧
    ∀ writes later, s.keyInput = writes :: later →
      t.keyInput = later ∧
      (∀ k : Fin 16, (∀ w ∈ writes, w.key ≠ k) → t.key[k.val] = s.key[k.val]) ∧
      ∀ before w after, writes = before ++ w :: after → (∀ u ∈ after, u.key ≠ w.key) →
        t.key[w.key.val] = w.pressed ∧
        ∀ (op : Word) (x : Reg), t.status = .running → fetch parameters t = .ok op → decodeWord op = some (.skp x) →
          t.v[x.val].toNat = w.key.val →
          engineStep parameters t = .next { t with pc := if w.pressed = true then t.pc + 2 + 2 else t.pc + 2 }
end

