-- ==== Sys2Proof/Laws/Decode.lean ====
section
/-! SUPPORT. The fields of the words that the encoder builds (00_scope.md R12, 30_encoding.md R71). -/

namespace Sys2Proof

theorem field_eq (op : Word) (hi lo : Nat) : field op hi lo = op.toNat / 2 ^ lo % 2 ^ (hi - lo + 1) := rfl

/-- The bytes of a word make the word (R53, R70). -/
theorem wordOfBytes_split (op : Word) : wordOfBytes (highByte op) (lowByte op) = op := by
  apply BitVec.eq_of_toNat_eq
  have := op.isLt
  simp [wordOfBytes, highByte, lowByte, field_eq]
  omega

/-- The bytes of a word made of two bytes are those bytes (R53). -/
theorem highByte_wordOfBytes (hi lo : Byte) : highByte (wordOfBytes hi lo) = hi := by
  apply BitVec.eq_of_toNat_eq
  have := hi.isLt
  have := lo.isLt
  simp [wordOfBytes, highByte, field_eq]
  omega

theorem lowByte_wordOfBytes (hi lo : Byte) : lowByte (wordOfBytes hi lo) = lo := by
  apply BitVec.eq_of_toNat_eq
  have := hi.isLt
  have := lo.isLt
  simp [wordOfBytes, lowByte, field_eq]
  omega

/-- The number of a word made of two bytes. -/
theorem wordOfBytes_toNat (hi lo : Byte) : (wordOfBytes hi lo).toNat = 256 * hi.toNat + lo.toNat := by
  have := hi.isLt
  have := lo.isLt
  simp [wordOfBytes]
  omega

/-- The fields of a format A word. -/
theorem encodeA_fields {f : Nat} (hf : f < 16) (nnn : Addr) :
    field (encodeA f nnn) 15 12 = f ∧ fieldNNN (encodeA f nnn) = nnn := by
  have := nnn.isLt
  refine ⟨by simp [encodeA, field_eq]; omega, BitVec.eq_of_toNat_eq ?_⟩
  simp [fieldNNN, encodeA, field_eq]
  omega

/-- The fields of a format XK word. -/
theorem encodeXK_fields {f : Nat} (hf : f < 16) (x : Reg) (kk : Byte) :
    field (encodeXK f x kk) 15 12 = f ∧ fieldX (encodeXK f x kk) = x ∧ fieldKK (encodeXK f x kk) = kk := by
  have := kk.isLt
  have := x.isLt
  refine ⟨by simp [encodeXK, field_eq]; omega, Fin.ext ?_, BitVec.eq_of_toNat_eq ?_⟩ <;>
    simp [fieldX, fieldKK, encodeXK, field_eq] <;> omega

/-- The fields of a format XY or XYN word. -/
theorem encodeXY_fields {f : Nat} (hf : f < 16) (x y : Reg) (n : Fin 16) :
    field (encodeXY f x y n) 15 12 = f ∧ fieldX (encodeXY f x y n) = x ∧ fieldY (encodeXY f x y n) = y ∧
      field (encodeXY f x y n) 3 0 = n.val := by
  have := x.isLt
  have := y.isLt
  have := n.isLt
  refine ⟨by simp [encodeXY, field_eq]; omega, Fin.ext ?_, Fin.ext ?_, ?_⟩ <;>
    simp [fieldX, fieldY, encodeXY, field_eq] <;> omega

/-- The fields of a format X word. -/
theorem encodeX_fields {f ss : Nat} (hf : f < 16) (hs : ss < 256) (x : Reg) :
    field (encodeX f x ss) 15 12 = f ∧ fieldX (encodeX f x ss) = x ∧ field (encodeX f x ss) 7 0 = ss := by
  have := x.isLt
  refine ⟨by simp [encodeX, field_eq]; omega, Fin.ext ?_, ?_⟩ <;>
    simp [fieldX, encodeX, field_eq] <;> omega

/-- The nibble field as an operand. -/
theorem fieldN_eq (op : Word) : (fieldN op).val = field op 3 0 := rfl

end Sys2Proof
end

