-- ==== Sys2Proof/Laws/Memory.lean ====
section
/-! SUPPORT. The laws of MEM: what is read after a write, and that every operation keeps the canonical form. -/

namespace Sys2Proof.Machine

/-- What the canonical form says of a listed memory. -/
theorem Memory.wf_cons {a : Nat} {w : Byte} {m : Memory} :
    Memory.wf ((a, w) :: m) = true ↔
      a < memorySize ∧ w ≠ resetByte a ∧ (∀ c ∈ m, a < c.1) ∧ Memory.wf m = true := by
  simp [Memory.wf, and_assoc]

/-- A cell below every listed address holds its reset contents. -/
theorem Memory.read_of_lt {m : Memory} {a : Nat} (h : ∀ c ∈ m, a < c.1) : m.read a = resetByte a := by
  induction m with
  | nil => rfl
  | cons c m ih =>
    have hc := h c (by simp)
    have ha : a ≠ c.1 := by omega
    simp only [Memory.read, ha, if_false]
    exact ih fun c' hc' => h c' (by simp [hc'])

/-- `cons` lists the cell, or leaves it out because it is at its reset contents. -/
theorem Memory.read_consCell {m : Memory} {a : Nat} (w : Byte) (b : Nat) (h : ∀ c ∈ m, a < c.1) :
    (Memory.cons a w m).read b = if b = a then w else m.read b := by
  unfold Memory.cons
  split
  · split
    · simp_all [Memory.read_of_lt h]
    · rfl
  · rfl

/-- Read after write (R51, R59): the written cell reads as written, every other cell as before. -/
theorem Memory.read_write {m : Memory} (hm : m.wf = true) (a : Nat) (w : Byte) (b : Nat) :
    (m.write a w).read b = if b = a then w else m.read b := by
  induction m with
  | nil => exact Memory.read_consCell w b (by simp)
  | cons c m ih =>
    obtain ⟨a', u⟩ := c
    obtain ⟨-, -, hlt, hwf⟩ := Memory.wf_cons.mp hm
    unfold Memory.write
    by_cases h1 : a < a'
    · rw [if_pos h1]
      refine Memory.read_consCell w b fun c hc => ?_
      rcases List.mem_cons.mp hc with rfl | hc
      · exact h1
      · exact Nat.lt_trans h1 (hlt c hc)
    · rw [if_neg h1]
      by_cases h2 : a = a'
      · subst h2
        rw [if_pos rfl, Memory.read_consCell w b hlt]
        simp only [Memory.read]
        split_ifs <;> rfl
      · rw [if_neg h2]
        simp only [Memory.read, ih hwf]
        split_ifs <;> first | rfl | omega

/-- Every listed address after a write is the written one, or was listed before. -/
theorem Memory.mem_write {m : Memory} {a : Nat} {w : Byte} {c : Host.Cell} (h : c ∈ m.write a w) :
    c.1 = a ∨ c ∈ m := by
  induction m with
  | nil =>
    unfold Memory.write Memory.cons at h
    split at h <;> simp_all
  | cons d m ih =>
    obtain ⟨a', u⟩ := d
    unfold Memory.write Memory.cons at h
    split_ifs at h <;> simp only [List.mem_cons] at h ⊢ <;> grind

/-- A write inside the space keeps the canonical form. -/
theorem Memory.wf_write {m : Memory} (hm : m.wf = true) {a : Nat} (ha : a < memorySize) (w : Byte) :
    (m.write a w).wf = true := by
  induction m with
  | nil =>
    unfold Memory.write Memory.cons
    split
    · rfl
    · exact Memory.wf_cons.mpr ⟨ha, ‹_›, by simp, rfl⟩
  | cons c m ih =>
    obtain ⟨a', u⟩ := c
    obtain ⟨ha', hu, hlt, hwf⟩ := Memory.wf_cons.mp hm
    unfold Memory.write Memory.cons
    split_ifs with h1 h2 h3 h4
    · exact hm
    · refine Memory.wf_cons.mpr ⟨ha, h2, fun c hc => ?_, hm⟩
      rcases List.mem_cons.mp hc with rfl | hc
      · exact h1
      · exact Nat.lt_trans h1 (hlt c hc)
    · exact hwf
    · subst h3
      exact Memory.wf_cons.mpr ⟨ha, h4, hlt, hwf⟩
    · refine Memory.wf_cons.mpr ⟨ha', hu, fun c hc => ?_, ih hwf⟩
      rcases Memory.mem_write hc with h | h
      · omega
      · exact hlt c h

/-- Storing bytes inside the space keeps the canonical form. -/
theorem Memory.wf_writeBytes {ws : List Byte} {m : Memory} (hm : m.wf = true) {base : Nat}
    (h : base + ws.length ≤ memorySize) : (m.writeBytes base ws).wf = true := by
  induction ws generalizing m base with
  | nil => exact hm
  | cons w ws ih =>
    rw [List.length_cons] at h
    exact ih (Memory.wf_write hm (by omega) w) (by omega)

/-- What is read after a run of bytes is stored: the k-th byte at base + k, and every other cell as before. -/
theorem Memory.read_writeBytes {ws : List Byte} {m : Memory} (hm : m.wf = true) {base : Nat}
    (h : base + ws.length ≤ memorySize) (b : Nat) :
    (m.writeBytes base ws).read b = if hb : base ≤ b ∧ b < base + ws.length then ws[b - base] else m.read b := by
  induction ws generalizing m base with
  | nil => simp [Memory.writeBytes]
  | cons w ws ih =>
    rw [List.length_cons] at h
    rw [Memory.writeBytes, ih (Memory.wf_write hm (by omega) w) (by omega)]
    by_cases h1 : base + 1 ≤ b ∧ b < base + 1 + ws.length
    · have h2 : base ≤ b ∧ b < base + (w :: ws).length := by simp only [List.length_cons]; omega
      have h3 : b - base = (b - (base + 1)) + 1 := by omega
      rw [dif_pos h1, dif_pos h2]
      simp [h3]
    · rw [dif_neg h1, Memory.read_write hm]
      by_cases h4 : b = base
      · subst h4
        simp
      · have h2 : ¬ (base ≤ b ∧ b < base + (w :: ws).length) := by simp only [List.length_cons]; omega
        rw [dif_neg h2, if_neg h4]

/-- The bytes of a run, one by one. -/
theorem Memory.readBytes_length (m : Memory) (base count : Nat) : (m.readBytes base count).length = count := by
  induction count generalizing base with
  | zero => rfl
  | succ n ih => simp [Memory.readBytes, ih]

theorem Memory.readBytes_get (m : Memory) (base count k : Nat) (h : k < (m.readBytes base count).length) :
    (m.readBytes base count)[k] = m.read (base + k) := by
  induction count generalizing base k with
  | zero => simp [Memory.readBytes] at h
  | succ n ih =>
    cases k with
    | zero => rfl
    | succ k =>
      simp only [Memory.readBytes, List.getElem_cons_succ]
      rw [ih]
      congr 1
      omega

/-- `MemRead` succeeds exactly inside the space (R51). -/
theorem memRead_eq (m : Memory) (a : Nat) :
    memRead m a = if a > 0xFFF then .error (.memoryOutOfBounds a) else .ok (m.read a) := rfl

/-- The check of a block succeeds when every address of it is in the space (R56). -/
theorem checkBlock_ok {base count : Nat} (h : count = 0 ∨ base + count - 1 ≤ 0xFFF) : checkBlock base count = .ok () :=
  if_pos h

/-- The check of a block fails with the lowest bad address (R56). -/
theorem checkBlock_error {base count : Nat} (h : ¬ (count = 0 ∨ base + count - 1 ≤ 0xFFF)) :
    checkBlock base count = .error (.memoryOutOfBounds (max base 0x1000)) :=
  if_neg h

end Sys2Proof.Machine
end

