-- ==== Sys2Proof/Laws/State.lean ====
section
/-! SUPPORT. One lemma per field per update of the state, true by rfl, and how registers are read after a write. -/

namespace Sys2Proof.Machine

variable (s : State)

@[simp] theorem State.setReg_mem (x : Reg) (b : Byte) : (s.setReg x b).mem = s.mem := rfl
@[simp] theorem State.setReg_v (x : Reg) (b : Byte) : (s.setReg x b).v = s.v.set x.val b := rfl
@[simp] theorem State.setReg_i (x : Reg) (b : Byte) : (s.setReg x b).i = s.i := rfl
@[simp] theorem State.setReg_pc (x : Reg) (b : Byte) : (s.setReg x b).pc = s.pc := rfl
@[simp] theorem State.setReg_sp (x : Reg) (b : Byte) : (s.setReg x b).sp = s.sp := rfl
@[simp] theorem State.setReg_stack (x : Reg) (b : Byte) : (s.setReg x b).stack = s.stack := rfl
@[simp] theorem State.setReg_disp (x : Reg) (b : Byte) : (s.setReg x b).disp = s.disp := rfl
@[simp] theorem State.setReg_key (x : Reg) (b : Byte) : (s.setReg x b).key = s.key := rfl
@[simp] theorem State.setReg_dt (x : Reg) (b : Byte) : (s.setReg x b).dt = s.dt := rfl
@[simp] theorem State.setReg_st (x : Reg) (b : Byte) : (s.setReg x b).st = s.st := rfl
@[simp] theorem State.setReg_status (x : Reg) (b : Byte) : (s.setReg x b).status = s.status := rfl
@[simp] theorem State.setReg_draws (x : Reg) (b : Byte) : (s.setReg x b).draws = s.draws := rfl
@[simp] theorem State.setReg_keyInput (x : Reg) (b : Byte) : (s.setReg x b).keyInput = s.keyInput := rfl
@[simp] theorem State.setReg_diag (x : Reg) (b : Byte) : (s.setReg x b).diag = s.diag := rfl

@[simp] theorem State.setI_mem (w : Word) : (s.setI w).mem = s.mem := rfl
@[simp] theorem State.setI_v (w : Word) : (s.setI w).v = s.v := rfl
@[simp] theorem State.setI_i (w : Word) : (s.setI w).i = w := rfl
@[simp] theorem State.setI_pc (w : Word) : (s.setI w).pc = s.pc := rfl
@[simp] theorem State.setI_sp (w : Word) : (s.setI w).sp = s.sp := rfl
@[simp] theorem State.setI_stack (w : Word) : (s.setI w).stack = s.stack := rfl
@[simp] theorem State.setI_disp (w : Word) : (s.setI w).disp = s.disp := rfl
@[simp] theorem State.setI_key (w : Word) : (s.setI w).key = s.key := rfl
@[simp] theorem State.setI_dt (w : Word) : (s.setI w).dt = s.dt := rfl
@[simp] theorem State.setI_st (w : Word) : (s.setI w).st = s.st := rfl
@[simp] theorem State.setI_status (w : Word) : (s.setI w).status = s.status := rfl
@[simp] theorem State.setI_draws (w : Word) : (s.setI w).draws = s.draws := rfl
@[simp] theorem State.setI_keyInput (w : Word) : (s.setI w).keyInput = s.keyInput := rfl
@[simp] theorem State.setI_diag (w : Word) : (s.setI w).diag = s.diag := rfl

@[simp] theorem State.setDt_mem (b : Byte) : (s.setDt b).mem = s.mem := rfl
@[simp] theorem State.setDt_v (b : Byte) : (s.setDt b).v = s.v := rfl
@[simp] theorem State.setDt_i (b : Byte) : (s.setDt b).i = s.i := rfl
@[simp] theorem State.setDt_pc (b : Byte) : (s.setDt b).pc = s.pc := rfl
@[simp] theorem State.setDt_sp (b : Byte) : (s.setDt b).sp = s.sp := rfl
@[simp] theorem State.setDt_stack (b : Byte) : (s.setDt b).stack = s.stack := rfl
@[simp] theorem State.setDt_disp (b : Byte) : (s.setDt b).disp = s.disp := rfl
@[simp] theorem State.setDt_key (b : Byte) : (s.setDt b).key = s.key := rfl
@[simp] theorem State.setDt_dt (b : Byte) : (s.setDt b).dt = b := rfl
@[simp] theorem State.setDt_st (b : Byte) : (s.setDt b).st = s.st := rfl
@[simp] theorem State.setDt_status (b : Byte) : (s.setDt b).status = s.status := rfl
@[simp] theorem State.setDt_draws (b : Byte) : (s.setDt b).draws = s.draws := rfl
@[simp] theorem State.setDt_keyInput (b : Byte) : (s.setDt b).keyInput = s.keyInput := rfl
@[simp] theorem State.setDt_diag (b : Byte) : (s.setDt b).diag = s.diag := rfl

@[simp] theorem State.setSt_mem (b : Byte) : (s.setSt b).mem = s.mem := rfl
@[simp] theorem State.setSt_v (b : Byte) : (s.setSt b).v = s.v := rfl
@[simp] theorem State.setSt_i (b : Byte) : (s.setSt b).i = s.i := rfl
@[simp] theorem State.setSt_pc (b : Byte) : (s.setSt b).pc = s.pc := rfl
@[simp] theorem State.setSt_sp (b : Byte) : (s.setSt b).sp = s.sp := rfl
@[simp] theorem State.setSt_stack (b : Byte) : (s.setSt b).stack = s.stack := rfl
@[simp] theorem State.setSt_disp (b : Byte) : (s.setSt b).disp = s.disp := rfl
@[simp] theorem State.setSt_key (b : Byte) : (s.setSt b).key = s.key := rfl
@[simp] theorem State.setSt_dt (b : Byte) : (s.setSt b).dt = s.dt := rfl
@[simp] theorem State.setSt_st (b : Byte) : (s.setSt b).st = b := rfl
@[simp] theorem State.setSt_status (b : Byte) : (s.setSt b).status = s.status := rfl
@[simp] theorem State.setSt_draws (b : Byte) : (s.setSt b).draws = s.draws := rfl
@[simp] theorem State.setSt_keyInput (b : Byte) : (s.setSt b).keyInput = s.keyInput := rfl
@[simp] theorem State.setSt_diag (b : Byte) : (s.setSt b).diag = s.diag := rfl

@[simp] theorem State.setPc_mem (w : Word) : (s.setPc w).mem = s.mem := rfl
@[simp] theorem State.setPc_v (w : Word) : (s.setPc w).v = s.v := rfl
@[simp] theorem State.setPc_i (w : Word) : (s.setPc w).i = s.i := rfl
@[simp] theorem State.setPc_pc (w : Word) : (s.setPc w).pc = w := rfl
@[simp] theorem State.setPc_sp (w : Word) : (s.setPc w).sp = s.sp := rfl
@[simp] theorem State.setPc_stack (w : Word) : (s.setPc w).stack = s.stack := rfl
@[simp] theorem State.setPc_disp (w : Word) : (s.setPc w).disp = s.disp := rfl
@[simp] theorem State.setPc_key (w : Word) : (s.setPc w).key = s.key := rfl
@[simp] theorem State.setPc_dt (w : Word) : (s.setPc w).dt = s.dt := rfl
@[simp] theorem State.setPc_st (w : Word) : (s.setPc w).st = s.st := rfl
@[simp] theorem State.setPc_status (w : Word) : (s.setPc w).status = s.status := rfl
@[simp] theorem State.setPc_draws (w : Word) : (s.setPc w).draws = s.draws := rfl
@[simp] theorem State.setPc_keyInput (w : Word) : (s.setPc w).keyInput = s.keyInput := rfl
@[simp] theorem State.setPc_diag (w : Word) : (s.setPc w).diag = s.diag := rfl

@[simp] theorem State.advance_mem : (s.advance).mem = s.mem := rfl
@[simp] theorem State.advance_v : (s.advance).v = s.v := rfl
@[simp] theorem State.advance_i : (s.advance).i = s.i := rfl
@[simp] theorem State.advance_pc : (s.advance).pc = s.pc + 2 := rfl
@[simp] theorem State.advance_sp : (s.advance).sp = s.sp := rfl
@[simp] theorem State.advance_stack : (s.advance).stack = s.stack := rfl
@[simp] theorem State.advance_disp : (s.advance).disp = s.disp := rfl
@[simp] theorem State.advance_key : (s.advance).key = s.key := rfl
@[simp] theorem State.advance_dt : (s.advance).dt = s.dt := rfl
@[simp] theorem State.advance_st : (s.advance).st = s.st := rfl
@[simp] theorem State.advance_status : (s.advance).status = s.status := rfl
@[simp] theorem State.advance_draws : (s.advance).draws = s.draws := rfl
@[simp] theorem State.advance_keyInput : (s.advance).keyInput = s.keyInput := rfl
@[simp] theorem State.advance_diag : (s.advance).diag = s.diag := rfl

@[simp] theorem State.skip_mem : (s.skip).mem = s.mem := rfl
@[simp] theorem State.skip_v : (s.skip).v = s.v := rfl
@[simp] theorem State.skip_i : (s.skip).i = s.i := rfl
@[simp] theorem State.skip_pc : (s.skip).pc = s.pc + 2 := rfl
@[simp] theorem State.skip_sp : (s.skip).sp = s.sp := rfl
@[simp] theorem State.skip_stack : (s.skip).stack = s.stack := rfl
@[simp] theorem State.skip_disp : (s.skip).disp = s.disp := rfl
@[simp] theorem State.skip_key : (s.skip).key = s.key := rfl
@[simp] theorem State.skip_dt : (s.skip).dt = s.dt := rfl
@[simp] theorem State.skip_st : (s.skip).st = s.st := rfl
@[simp] theorem State.skip_status : (s.skip).status = s.status := rfl
@[simp] theorem State.skip_draws : (s.skip).draws = s.draws := rfl
@[simp] theorem State.skip_keyInput : (s.skip).keyInput = s.keyInput := rfl
@[simp] theorem State.skip_diag : (s.skip).diag = s.diag := rfl

@[simp] theorem State.storeAtI_mem (bytes : List Byte) : (s.storeAtI bytes).mem = s.mem.writeBytes s.base bytes := rfl
@[simp] theorem State.storeAtI_v (bytes : List Byte) : (s.storeAtI bytes).v = s.v := rfl
@[simp] theorem State.storeAtI_i (bytes : List Byte) : (s.storeAtI bytes).i = s.i := rfl
@[simp] theorem State.storeAtI_pc (bytes : List Byte) : (s.storeAtI bytes).pc = s.pc := rfl
@[simp] theorem State.storeAtI_sp (bytes : List Byte) : (s.storeAtI bytes).sp = s.sp := rfl
@[simp] theorem State.storeAtI_stack (bytes : List Byte) : (s.storeAtI bytes).stack = s.stack := rfl
@[simp] theorem State.storeAtI_disp (bytes : List Byte) : (s.storeAtI bytes).disp = s.disp := rfl
@[simp] theorem State.storeAtI_key (bytes : List Byte) : (s.storeAtI bytes).key = s.key := rfl
@[simp] theorem State.storeAtI_dt (bytes : List Byte) : (s.storeAtI bytes).dt = s.dt := rfl
@[simp] theorem State.storeAtI_st (bytes : List Byte) : (s.storeAtI bytes).st = s.st := rfl
@[simp] theorem State.storeAtI_status (bytes : List Byte) : (s.storeAtI bytes).status = s.status := rfl
@[simp] theorem State.storeAtI_draws (bytes : List Byte) : (s.storeAtI bytes).draws = s.draws := rfl
@[simp] theorem State.storeAtI_keyInput (bytes : List Byte) : (s.storeAtI bytes).keyInput = s.keyInput := rfl
@[simp] theorem State.storeAtI_diag (bytes : List Byte) : (s.storeAtI bytes).diag = s.diag := rfl

@[simp] theorem State.setResultAndFlag_mem (x : Reg) (b f : Byte) : (s.setResultAndFlag x b f).mem = s.mem := rfl
@[simp] theorem State.setResultAndFlag_v (x : Reg) (b f : Byte) : (s.setResultAndFlag x b f).v = (s.v.set x.val b).set VF.val f := rfl
@[simp] theorem State.setResultAndFlag_i (x : Reg) (b f : Byte) : (s.setResultAndFlag x b f).i = s.i := rfl
@[simp] theorem State.setResultAndFlag_pc (x : Reg) (b f : Byte) : (s.setResultAndFlag x b f).pc = s.pc := rfl
@[simp] theorem State.setResultAndFlag_sp (x : Reg) (b f : Byte) : (s.setResultAndFlag x b f).sp = s.sp := rfl
@[simp] theorem State.setResultAndFlag_stack (x : Reg) (b f : Byte) : (s.setResultAndFlag x b f).stack = s.stack := rfl
@[simp] theorem State.setResultAndFlag_disp (x : Reg) (b f : Byte) : (s.setResultAndFlag x b f).disp = s.disp := rfl
@[simp] theorem State.setResultAndFlag_key (x : Reg) (b f : Byte) : (s.setResultAndFlag x b f).key = s.key := rfl
@[simp] theorem State.setResultAndFlag_dt (x : Reg) (b f : Byte) : (s.setResultAndFlag x b f).dt = s.dt := rfl
@[simp] theorem State.setResultAndFlag_st (x : Reg) (b f : Byte) : (s.setResultAndFlag x b f).st = s.st := rfl
@[simp] theorem State.setResultAndFlag_status (x : Reg) (b f : Byte) : (s.setResultAndFlag x b f).status = s.status := rfl
@[simp] theorem State.setResultAndFlag_draws (x : Reg) (b f : Byte) : (s.setResultAndFlag x b f).draws = s.draws := rfl
@[simp] theorem State.setResultAndFlag_keyInput (x : Reg) (b f : Byte) : (s.setResultAndFlag x b f).keyInput = s.keyInput := rfl
@[simp] theorem State.setResultAndFlag_diag (x : Reg) (b f : Byte) : (s.setResultAndFlag x b f).diag = s.diag := rfl

@[simp] theorem takeFault_mem (c : FaultCause) (pc0 : Word) (op : Option Word) : (takeFault c pc0 op s).mem = s.mem := rfl
@[simp] theorem takeFault_v (c : FaultCause) (pc0 : Word) (op : Option Word) : (takeFault c pc0 op s).v = s.v := rfl
@[simp] theorem takeFault_i (c : FaultCause) (pc0 : Word) (op : Option Word) : (takeFault c pc0 op s).i = s.i := rfl
@[simp] theorem takeFault_pc (c : FaultCause) (pc0 : Word) (op : Option Word) : (takeFault c pc0 op s).pc = pc0 := rfl
@[simp] theorem takeFault_sp (c : FaultCause) (pc0 : Word) (op : Option Word) : (takeFault c pc0 op s).sp = s.sp := rfl
@[simp] theorem takeFault_stack (c : FaultCause) (pc0 : Word) (op : Option Word) : (takeFault c pc0 op s).stack = s.stack := rfl
@[simp] theorem takeFault_disp (c : FaultCause) (pc0 : Word) (op : Option Word) : (takeFault c pc0 op s).disp = s.disp := rfl
@[simp] theorem takeFault_key (c : FaultCause) (pc0 : Word) (op : Option Word) : (takeFault c pc0 op s).key = s.key := rfl
@[simp] theorem takeFault_dt (c : FaultCause) (pc0 : Word) (op : Option Word) : (takeFault c pc0 op s).dt = s.dt := rfl
@[simp] theorem takeFault_st (c : FaultCause) (pc0 : Word) (op : Option Word) : (takeFault c pc0 op s).st = s.st := rfl
@[simp] theorem takeFault_status (c : FaultCause) (pc0 : Word) (op : Option Word) : (takeFault c pc0 op s).status = .halted { cause := c, pc0 := pc0, op := op } := rfl
@[simp] theorem takeFault_draws (c : FaultCause) (pc0 : Word) (op : Option Word) : (takeFault c pc0 op s).draws = s.draws := rfl
@[simp] theorem takeFault_keyInput (c : FaultCause) (pc0 : Word) (op : Option Word) : (takeFault c pc0 op s).keyInput = s.keyInput := rfl
@[simp] theorem takeFault_diag (c : FaultCause) (pc0 : Word) (op : Option Word) : (takeFault c pc0 op s).diag = s.diag := rfl

@[simp] theorem keyWrite_mem (w : KeyWrite) : (keyWrite s w).mem = s.mem := rfl
@[simp] theorem keyWrite_v (w : KeyWrite) : (keyWrite s w).v = s.v := rfl
@[simp] theorem keyWrite_i (w : KeyWrite) : (keyWrite s w).i = s.i := rfl
@[simp] theorem keyWrite_pc (w : KeyWrite) : (keyWrite s w).pc = s.pc := rfl
@[simp] theorem keyWrite_sp (w : KeyWrite) : (keyWrite s w).sp = s.sp := rfl
@[simp] theorem keyWrite_stack (w : KeyWrite) : (keyWrite s w).stack = s.stack := rfl
@[simp] theorem keyWrite_disp (w : KeyWrite) : (keyWrite s w).disp = s.disp := rfl
@[simp] theorem keyWrite_key (w : KeyWrite) : (keyWrite s w).key = s.key.set w.key.val w.pressed := rfl
@[simp] theorem keyWrite_dt (w : KeyWrite) : (keyWrite s w).dt = s.dt := rfl
@[simp] theorem keyWrite_st (w : KeyWrite) : (keyWrite s w).st = s.st := rfl
@[simp] theorem keyWrite_status (w : KeyWrite) : (keyWrite s w).status = s.status := rfl
@[simp] theorem keyWrite_draws (w : KeyWrite) : (keyWrite s w).draws = s.draws := rfl
@[simp] theorem keyWrite_keyInput (w : KeyWrite) : (keyWrite s w).keyInput = s.keyInput := rfl
@[simp] theorem keyWrite_diag (w : KeyWrite) : (keyWrite s w).diag = s.diag := rfl

@[simp] theorem State.reg_eq (x : Reg) : s.reg x = s.v[x.val] := rfl

@[simp] theorem State.keyDown_eq (k : Fin 16) : s.keyDown k = s.key[k.val] := rfl

@[simp] theorem State.base_eq : s.base = s.i.toNat := rfl

@[simp] theorem State.pc0_eq : s.pc0 = s.pc - 2 := rfl

/-- After the advance, pc0 is the address of the fetched instruction (R92). -/
@[simp] theorem State.advance_pc0 : s.advance.pc0 = s.pc := by
  simp [State.pc0, State.advance]

/-- A register after one register is written (R21). -/
theorem State.setReg_get (x y : Reg) (b : Byte) : (s.setReg x b).v[y.val] = if y = x then b else s.v[y.val] := by
  by_cases h : y = x
  · simp [h]
  · have : x.val ≠ y.val := fun e => h (Fin.ext e.symm)
    simp [h, this]

/-- A register after a result and a flag are written: the flag is written last (R143). -/
theorem State.setResultAndFlag_get (x y : Reg) (b f : Byte) :
    (s.setResultAndFlag x b f).v[y.val] = if y = VF then f else if y = x then b else s.v[y.val] := by
  rw [State.setResultAndFlag, State.setReg_get, State.setReg_get]

/-- `skipIf` moves PC by a further 2 or not at all (R99). -/
theorem State.skipIf_eq (b : Bool) : s.skipIf b = { s with pc := if b then s.pc + 2 else s.pc } := by
  cases b <;> rfl

/-- A fault raised by a body leaves the state that `faulted` names (R96, R220). -/
@[simp] theorem raise_eq (i : Instr) (c : FaultCause) : raise i c s = .next (faulted i c s) := rfl

end Sys2Proof.Machine
end

