-- ==== Sys2Proof/Laws/Ops.lean ====
section
/-! SUPPORT. One lemma for each shared operation that says what it can do; proofs cite it instead of unfolding it. -/

namespace Sys2Proof.Machine

/-- A push below the capacity (10_state.md R26). -/
theorem State.push_of_lt {s : State} (h : s.sp.val < 16) (w : Word) :
    s.push w = some { s with stack := s.stack.set s.sp.val w, sp := ⟨s.sp.val + 1, by omega⟩ } :=
  dif_pos h

/-- A push on a full stack (R27). -/
theorem State.push_full {s : State} (h : s.sp.val = 16) (w : Word) : s.push w = none :=
  dif_neg (by omega)

/-- A pop of a stack that is not empty (R26). -/
theorem State.pop_of_pos {s : State} (h : 0 < s.sp.val) :
    s.pop = some (s.stack[s.sp.val - 1], { s with sp := ⟨s.sp.val - 1, by omega⟩ }) :=
  dif_neg (by omega)

/-- A pop of an empty stack (R27). -/
theorem State.pop_empty {s : State} (h : s.sp.val = 0) : s.pop = none :=
  dif_pos h

/-- A guarded instruction has its effect or takes the fault of its check (20_memory.md R56). -/
theorem guarded_ok {i : Instr} {check : Except FaultCause Unit} {s effect : State} (h : check = .ok ()) :
    guarded i check s effect = .next effect := by
  subst h
  rfl

theorem guarded_error {i : Instr} {check : Except FaultCause Unit} {c : FaultCause} {s effect : State}
    (h : check = .error c) : guarded i check s effect = .next (faulted i c s) := by
  subst h
  rfl

/-- A key number at most 0xF names a cell (R31). -/
theorem keyNumber_of_lt {b : Byte} {k : Fin 16} (h : b.toNat = k.val) : keyNumber b = some k := by
  unfold keyNumber
  rw [dif_pos (by omega)]
  exact congrArg some (Fin.ext h)

/-- A key number above 0xF names none (R215). -/
theorem keyNumber_of_gt {b : Byte} (h : b.toNat > 0x0F) : keyNumber b = none :=
  dif_neg (by omega)

/-- The lowest pressed key (R193). -/
theorem State.lowestKey_eq {s : State} {k : Fin 16} (hk : s.key[k.val] = true)
    (hlow : ∀ j : Fin 16, j < k → s.key[j.val] = false) : s.lowestKey = some k := by
  have hsorted : allRegs.Pairwise (· < ·) := by decide
  have hmem : ∀ j : Fin 16, j ∈ allRegs := by decide
  obtain ⟨before, after, h⟩ := List.append_of_mem (hmem k)
  unfold State.lowestKey
  rw [h] at hsorted ⊢
  refine List.find?_eq_some_iff_append.mpr ⟨hk, before, after, rfl, fun j hj => ?_⟩
  have hlt : j < k := (List.pairwise_append.mp hsorted).2.2 j hj k (by simp)
  simp [hlow j hlt]

/-- No key pressed (R193). -/
theorem State.lowestKey_none {s : State} (h : ∀ k : Fin 16, s.key[k.val] = false) : s.lowestKey = none := by
  unfold State.lowestKey
  exact List.find?_eq_none.mpr fun k _ => by simp [h k]

/-- The registers V0..Vx are those whose number is at most x (R164, R165). -/
theorem mem_regsUpTo {x r : Reg} : r ∈ regsUpTo x ↔ r ≤ x := by
  have h : ∀ i : Reg, i ∈ allRegs := by decide
  simp [regsUpTo, h]

/-- There are x + 1 of them, in order. -/
theorem regsUpTo_length (x : Reg) : (regsUpTo x).length = x.val + 1 := by
  fin_cases x <;> rfl

theorem regsUpTo_get (x : Reg) (k : Nat) (h : k < (regsUpTo x).length) : ((regsUpTo x)[k]).val = k := by
  have : ∀ (x : Reg) (k : Fin 16), (hk : k.val < (regsUpTo x).length) → ((regsUpTo x)[k.val]).val = k.val := by decide
  exact this x ⟨k, by rw [regsUpTo_length] at h; omega⟩ h

/-- Setting registers one after the other, each to a value that depends on its number alone. -/
theorem foldl_setReg (f : Reg → Byte) (rs : List Reg) (s : State) :
    (rs.foldl (fun t r => t.setReg r (f r)) s) = { s with v := (rs.foldl (fun t r => t.setReg r (f r)) s).v } ∧
      ∀ y : Reg, (rs.foldl (fun t r => t.setReg r (f r)) s).v[y.val] = if y ∈ rs then f y else s.v[y.val] := by
  induction rs generalizing s with
  | nil => exact ⟨rfl, fun y => by simp⟩
  | cons r rs ih =>
    obtain ⟨h1, h2⟩ := ih (s.setReg r (f r))
    refine ⟨?_, fun y => ?_⟩
    · rw [List.foldl_cons]
      exact h1
    · rw [List.foldl_cons, h2 y, State.setReg_get]
      by_cases hy : y = r
      · simp [hy]
      · simp [hy]

/-- What Fx65 loads (R165): V0..Vx from I on, every other register as before, nothing else. -/
theorem State.loadFromI_spec (s : State) (x : Reg) :
    s.loadFromI x = { s with v := (s.loadFromI x).v } ∧
      ∀ y : Reg, (s.loadFromI x).v[y.val] = if y ≤ x then s.mem.read (s.i.toNat + y.val) else s.v[y.val] := by
  obtain ⟨h1, h2⟩ := foldl_setReg (fun r => s.mem.read (s.base + r.val)) (regsUpTo x) s
  exact ⟨h1, fun y => by rw [State.loadFromI, h2 y]; simp [mem_regsUpTo]⟩

/-- The fetch (R91), with its two reads in the order of the bounds checks. -/
theorem fetch_eq (p : Parameters) (s : State) :
    fetch p s =
      if s.pc.toNat % 2 = 1 ∧ p.allowOddPc = false then .error .misalignedFetch
      else if s.pc.toNat > 0xFFF then .error (.memoryOutOfBounds s.pc.toNat)
      else if s.pc.toNat + 1 > 0xFFF then .error (.memoryOutOfBounds (s.pc.toNat + 1))
      else .ok (wordOfBytes (s.mem.read s.pc.toNat) (s.mem.read (s.pc.toNat + 1))) := by
  unfold fetch memRead
  split_ifs <;> rfl

/-- A fetch that gives a word reads PC and MEM, and happens inside the space. -/
theorem fetch_ok {p : Parameters} {s : State} {op : Word} (h : fetch p s = .ok op) :
    s.pc.toNat + 1 ≤ 0xFFF ∧ (s.pc.toNat % 2 = 0 ∨ p.allowOddPc = true) ∧
      op = wordOfBytes (s.mem.read s.pc.toNat) (s.mem.read (s.pc.toNat + 1)) := by
  rw [fetch_eq] at h
  split_ifs at h with h1 h2 h3
  refine ⟨by omega, ?_, by simpa using h.symm⟩
  rcases Nat.mod_two_eq_zero_or_one s.pc.toNat with h4 | h4
  · exact .inl h4
  · exact .inr (by simpa [h4] using h1)

/-- A fetch inside the space at an even PC (R91). -/
theorem fetch_of_even {p : Parameters} {s : State} (h2 : s.pc.toNat % 2 = 0) (h : s.pc.toNat + 1 ≤ 0xFFF) :
    fetch p s = .ok (wordOfBytes (s.mem.read s.pc.toNat) (s.mem.read (s.pc.toNat + 1))) := by
  rw [fetch_eq, if_neg (by omega), if_neg (by omega), if_neg (by omega)]

/-- The UNKNOWN body in lenient and in strict mode (R94, R95). -/
theorem execUnknown_lenient {p : Parameters} (h : p.strictConformance = false) (op : Word) (s : State) :
    execUnknown p op s = { s with diag := s.diag ++ [{ pc0 := s.pc0, op := op }] } := by
  simp [execUnknown, h]

theorem execUnknown_strict {p : Parameters} (h : p.strictConformance = true) (op : Word) (s : State) :
    execUnknown p op s = takeFault .unknownOpcode s.pc0 (some op) s := by
  simp [execUnknown, h]

/-- A tick of a running block (R225). -/
theorem tick_running {s : State} (h : s.status = .running) :
    tick s = { s with dt := countDown s.dt, st := countDown s.st } := by
  simp [tick, h]

/-- A halted block does not tick (R225). -/
theorem tick_halted {s : State} {f : FaultRecord} (h : s.status = .halted f) : tick s = s := by
  simp [tick, h]

/-- A timer's countdown is the truncated subtraction of one. -/
theorem countDown_toNat (t : Byte) : (countDown t).toNat = t.toNat - 1 := by
  unfold countDown
  have := t.isLt
  split
  · simp_all
  · have h : t.toNat ≠ 0 := fun e => ‹¬ t = 0› (BitVec.eq_of_toNat_eq e)
    rw [BitVec.toNat_sub]
    simp
    omega

/-- In any state, a tick changes the timers alone (R225). -/
theorem tick_frame (s : State) : tick s = { s with dt := (tick s).dt, st := (tick s).st } := by
  unfold tick
  split <;> rfl

/-- Key writes change the latch alone (R37). -/
theorem foldl_keyWrite_frame (ws : List KeyWrite) (s : State) :
    ws.foldl keyWrite s = { s with key := (ws.foldl keyWrite s).key } := by
  induction ws generalizing s with
  | nil => rfl
  | cons w ws ih =>
    rw [List.foldl_cons]
    exact ih (keyWrite s w)

/-- The key refresh changes the latch and the writes still to come (R257). -/
theorem refreshKeys_frame (s : State) :
    refreshKeys s = { s with key := (refreshKeys s).key, keyInput := (refreshKeys s).keyInput } := by
  unfold refreshKeys
  split
  · rfl
  · rename_i writes later _
    rw [foldl_keyWrite_frame writes s]

/-- The end of a frame changes the timers, the latch and the writes still to come (R257). -/
theorem endFrame_frame (s : State) :
    endFrame s = { s with dt := (tick s).dt, st := (tick s).st, key := (endFrame s).key,
                          keyInput := (endFrame s).keyInput } := by
  unfold endFrame
  rw [refreshKeys_frame, tick_frame]

end Sys2Proof.Machine
end

