-- ==== Sys2Proof/Laws/Display.lean ====
section
/-! SUPPORT. The display: which pixels a sprite draws, and what drawing them does (spec/44_display.md). -/

namespace Sys2Proof.Machine

/-- Flipping a pixel flips it alone (R181). -/
theorem Display.pixel_flip (d : Display) (p q : Pixel) :
    (d.flip p).pixel q = if q = p then !d.pixel p else d.pixel q := by
  obtain ⟨r, c⟩ := p
  obtain ⟨r', c'⟩ := q
  simp only [Display.pixel, Display.flip, Pixel.mk.injEq]
  by_cases hr : r' = r
  · subst hr
    have h := c'.isLt
    simp only [Vector.getElem_set_self, BitVec.getLsbD_xor, BitVec.getLsbD_twoPow, true_and]
    by_cases hc : c' = c
    · subst hc
      simp [h]
    · have : c.val ≠ c'.val := fun e => hc (Fin.ext e.symm)
      simp [hc, this]
  · have : r.val ≠ r'.val := fun e => hr (Fin.ext e.symm)
    simp [hr, this]

/-- A blank display has no pixel set (R180). -/
theorem Display.pixel_blank (p : Pixel) : Display.blank.pixel p = false := by
  simp [Display.pixel, Display.blank]

/-- Two displays with the same pixels are equal. -/
theorem Display.ext_pixel {d e : Display} (h : ∀ p, d.pixel p = e.pixel p) : d = e := by
  apply Vector.ext
  intro r hr
  apply BitVec.eq_of_getLsbD_eq
  intro c hc
  exact h ⟨⟨r, hr⟩, ⟨c, hc⟩⟩

/-- The loop of R181 over distinct pixels: each is flipped once, and a collision is a pixel that was set. -/
theorem foldl_plot_spec {ps : List Pixel} (hn : ps.Nodup) (d : Display) (b : Bool) :
    (∀ q, (ps.foldl plot (d, b)).1.pixel q = if q ∈ ps then !d.pixel q else d.pixel q) ∧
      ((ps.foldl plot (d, b)).2 = true ↔ b = true ∨ ∃ q ∈ ps, d.pixel q = true) := by
  induction ps generalizing d b with
  | nil => simp
  | cons p ps ih =>
    obtain ⟨hp, hn⟩ := List.nodup_cons.mp hn
    obtain ⟨h1, h2⟩ := ih hn (d.flip p) (b || d.pixel p)
    rw [List.foldl_cons]
    refine ⟨fun q => ?_, ?_⟩
    · rw [plot, h1 q, Display.pixel_flip]
      by_cases hq : q = p
      · subst hq
        simp [hp]
      · simp [hq]
    · rw [plot, h2]
      have h3 : ∀ q ∈ ps, (d.flip p).pixel q = d.pixel q := fun q hq => by
        have hne : q ≠ p := fun e => hp (e ▸ hq)
        rw [Display.pixel_flip, if_neg hne]
      constructor
      · rintro (h | ⟨q, hq, h⟩)
        · rcases Bool.or_eq_true _ _ ▸ h with h | h
          · exact .inl h
          · exact .inr ⟨p, by simp, h⟩
        · exact .inr ⟨q, by simp [hq], h3 q hq ▸ h⟩
      · rintro (h | ⟨q, hq, h⟩)
        · simp [h]
        · rcases List.mem_cons.mp hq with rfl | hq
          · simp [h]
          · exact .inr ⟨q, hq, (h3 q hq).symm ▸ h⟩

/-- The pixels of one sprite row (R182, R183). -/
theorem mem_rowPixels {y x : Nat} {row : Byte} {p : Pixel} :
    p ∈ rowPixels y x row ↔ ∃ c, c < 8 ∧ row.getLsbD (7 - c) = true ∧ p.row.val = y % 32 ∧ p.col.val = (x + c) % 64 := by
  unfold rowPixels
  simp only [List.mem_map, List.mem_filter]
  constructor
  · rintro ⟨c, ⟨hc, hb⟩, rfl⟩
    refine ⟨c, ?_, hb, rfl, rfl⟩
    simp only [List.mem_cons, List.not_mem_nil, or_false] at hc
    omega
  · rintro ⟨c, hc, hb, h1, h2⟩
    refine ⟨c, ⟨?_, hb⟩, ?_⟩
    · simp only [List.mem_cons, List.not_mem_nil, or_false]
      omega
    · obtain ⟨⟨r, hr⟩, ⟨k, hk⟩⟩ := p
      simp only [wrapPixel, Pixel.mk.injEq, Fin.mk.injEq]
      exact ⟨h1.symm, h2.symm⟩

/-- The pixels of a sprite (R182, R183). -/
theorem mem_spritePixels {rows : List Byte} {y x : Nat} {p : Pixel} :
    p ∈ spritePixels y x rows ↔ ∃ r c, ∃ h : r < rows.length, c < 8 ∧ rows[r].getLsbD (7 - c) = true ∧
      p.row.val = (y + r) % 32 ∧ p.col.val = (x + c) % 64 := by
  induction rows generalizing y with
  | nil => simp [spritePixels]
  | cons row rows ih =>
    rw [spritePixels, List.mem_append, mem_rowPixels, ih]
    constructor
    · rintro (⟨c, h1, h2, h3, h4⟩ | ⟨r, c, hr, h1, h2, h3, h4⟩)
      · exact ⟨0, c, by simp, h1, h2, h3, h4⟩
      · exact ⟨r + 1, c, by simpa using hr, h1, h2, by rw [h3]; congr 1; omega, h4⟩
    · rintro ⟨r, c, hr, h1, h2, h3, h4⟩
      cases r with
      | zero => exact .inl ⟨c, h1, h2, h3, h4⟩
      | succ r => exact .inr ⟨r, c, by simpa using hr, h1, h2, by rw [h3]; congr 1; omega, h4⟩

/-- A sprite row's pixels are distinct: it is 8 wide (R181). -/
theorem nodup_rowPixels (y x : Nat) (row : Byte) : (rowPixels y x row).Nodup := by
  unfold rowPixels
  refine List.Nodup.map_on ?_ (List.Nodup.filter _ (by decide))
  intro a ha b hb h
  have ha := (List.mem_filter.mp ha).1
  have hb := (List.mem_filter.mp hb).1
  simp only [List.mem_cons, List.not_mem_nil, or_false] at ha hb
  simp only [wrapPixel, Pixel.mk.injEq, Fin.mk.injEq] at h
  omega

/-- A sprite's pixels are distinct: it is at most 15 high, so it never wraps onto itself (R181). -/
theorem nodup_spritePixels {rows : List Byte} (h : rows.length ≤ 32) (y x : Nat) : (spritePixels y x rows).Nodup := by
  induction rows generalizing y with
  | nil => exact List.nodup_nil
  | cons row rows ih =>
    rw [List.length_cons] at h
    rw [spritePixels]
    refine List.Nodup.append (nodup_rowPixels y x row) (ih (by omega) (y + 1)) ?_
    intro p hp hq
    obtain ⟨-, -, -, h1, -⟩ := mem_rowPixels.mp hp
    obtain ⟨r, -, hr, -, -, h2, -⟩ := mem_spritePixels.mp hq
    omega

/-- The pixels of the sprite at I are those `SpriteCovers` names (R181-R183). -/
theorem mem_sprite_iff (s : State) (x y : Reg) (n : Nat) (p : Pixel) :
    p ∈ spritePixels (s.reg y).toNat (s.reg x).toNat (s.sprite n) ↔ SpriteCovers s x y n p := by
  rw [mem_spritePixels]
  unfold SpriteCovers State.sprite
  constructor
  · rintro ⟨r, c, hr, h1, h2, h3, h4⟩
    rw [Memory.readBytes_get] at h2
    rw [Memory.readBytes_length] at hr
    exact ⟨r, c, hr, h1, h2, h3, h4⟩
  · rintro ⟨r, c, hr, h1, h2, h3, h4⟩
    refine ⟨r, c, by rw [Memory.readBytes_length]; exact hr, h1, ?_, h3, h4⟩
    rw [Memory.readBytes_get]
    exact h2

end Sys2Proof.Machine
end

