-- ==== Sys2Proof/Laws/PerInstr.lean ====
section
/-! SUPPORT. A statement about every instruction, one lemma per constructor: its operands are in the ranges of
30_encoding.md R72 and R79, which its types give. -/

namespace Sys2Proof.Laws.OperandsInRange

/-- The operands of the instruction pass the check of WellFormed.lean. -/
def Statement (i : Instr) : Prop := i.wellFormed = true

theorem isReg_val (x : Reg) : isReg x.val = true := decide_eq_true x.isLt

theorem isByte_toNat (kk : Byte) : isByte kk.toNat = true := decide_eq_true kk.isLt

/-- Format A. -/
theorem ofA (nnn : Addr) : (Operands.formA nnn.toNat).wellFormed = true := decide_eq_true nnn.isLt

/-- Format XK. -/
theorem ofXK (x : Reg) (kk : Byte) : (Operands.formXK x.val kk.toNat).wellFormed = true := by
  rw [Operands.wellFormed, isReg_val, isByte_toNat]
  rfl

/-- Format XY. -/
theorem ofXY (x y : Reg) : (Operands.formXY x.val y.val).wellFormed = true := by
  rw [Operands.wellFormed, isReg_val, isReg_val]
  rfl

/-- Format XYN. -/
theorem ofXYN (x y : Reg) (n : Fin 16) : (Operands.formXYN x.val y.val n.val).wellFormed = true := by
  rw [Operands.wellFormed, isReg_val, isReg_val]
  exact decide_eq_true n.isLt

/-- Format X. -/
theorem ofX (x : Reg) : (Operands.formX x.val).wellFormed = true := isReg_val x

theorem cls : Statement (.cls) := rfl
theorem ret : Statement (.ret) := rfl
theorem jp (nnn : Addr) : Statement (.jp nnn) := ofA nnn
theorem call (nnn : Addr) : Statement (.call nnn) := ofA nnn
theorem seByte (x : Reg) (kk : Byte) : Statement (.seByte x kk) := ofXK x kk
theorem sneByte (x : Reg) (kk : Byte) : Statement (.sneByte x kk) := ofXK x kk
theorem seReg (x y : Reg) : Statement (.seReg x y) := ofXY x y
theorem ldByte (x : Reg) (kk : Byte) : Statement (.ldByte x kk) := ofXK x kk
theorem addByte (x : Reg) (kk : Byte) : Statement (.addByte x kk) := ofXK x kk
theorem ldReg (x y : Reg) : Statement (.ldReg x y) := ofXY x y
theorem orReg (x y : Reg) : Statement (.orReg x y) := ofXY x y
theorem andReg (x y : Reg) : Statement (.andReg x y) := ofXY x y
theorem xorReg (x y : Reg) : Statement (.xorReg x y) := ofXY x y
theorem addReg (x y : Reg) : Statement (.addReg x y) := ofXY x y
theorem sub (x y : Reg) : Statement (.sub x y) := ofXY x y
theorem shr (x y : Reg) : Statement (.shr x y) := ofXY x y
theorem subn (x y : Reg) : Statement (.subn x y) := ofXY x y
theorem shl (x y : Reg) : Statement (.shl x y) := ofXY x y
theorem sneReg (x y : Reg) : Statement (.sneReg x y) := ofXY x y
theorem ldI (nnn : Addr) : Statement (.ldI nnn) := ofA nnn
theorem jpV0 (nnn : Addr) : Statement (.jpV0 nnn) := ofA nnn
theorem rnd (x : Reg) (kk : Byte) : Statement (.rnd x kk) := ofXK x kk
theorem drw (x y : Reg) (n : Fin 16) : Statement (.drw x y n) := ofXYN x y n
theorem skp (x : Reg) : Statement (.skp x) := ofX x
theorem sknp (x : Reg) : Statement (.sknp x) := ofX x
theorem ldVxDt (x : Reg) : Statement (.ldVxDt x) := ofX x
theorem ldVxK (x : Reg) : Statement (.ldVxK x) := ofX x
theorem ldDtVx (x : Reg) : Statement (.ldDtVx x) := ofX x
theorem ldStVx (x : Reg) : Statement (.ldStVx x) := ofX x
theorem addI (x : Reg) : Statement (.addI x) := ofX x
theorem ldF (x : Reg) : Statement (.ldF x) := ofX x
theorem ldB (x : Reg) : Statement (.ldB x) := ofX x
theorem ldMemVx (x : Reg) : Statement (.ldMemVx x) := ofX x
theorem ldVxMem (x : Reg) : Statement (.ldVxMem x) := ofX x

end Sys2Proof.Laws.OperandsInRange
end

