-- ==== Sys2Proof/Laws/Step.lean ====
section
/-! SUPPORT. What a step of the engine and a frame of the machine are made of (spec/40_engine_cycle.md R90,
spec/70_reset_and_hazards.md R257). -/

namespace Sys2Proof.Machine

/-- A step of a running block: fetch, then the fault, the body, or the UNKNOWN body (R90). -/
theorem engineStep_running {p : Parameters} {s : State} (h : s.status = .running) :
    engineStep p s =
      match fetch p s with
      | .error cause => .next (takeFault cause s.pc none s)
      | .ok op =>
        match decodeWord op with
        | some i => exec i s.advance
        | none => .next (execUnknown p op s.advance) := by
  cases s
  cases h
  rfl

/-- A halted block ignores the step (R90). -/
theorem engineStep_halted {p : Parameters} {s : State} {f : FaultRecord} (h : s.status = .halted f) :
    engineStep p s = .next s := by
  simp only [engineStep, h]

/-- A step whose fetch gives a word that decodes runs that body (R93). -/
theorem engineStep_exec {p : Parameters} {s : State} {op : Word} {i : Instr} (h : s.status = .running)
    (hf : fetch p s = .ok op) (hd : decodeWord op = some i) : engineStep p s = exec i s.advance := by
  rw [engineStep_running h, hf]
  simp only [hd]

/-- A frame of a running block whose step answers a next state (R257). -/
theorem frame_running {p : Parameters} {s t : State} (h : s.status = .running) (ht : engineStep p s = .next t) :
    frame p s = .next (endFrame t) := by
  simp only [frame, h, ht]

/-- No frame of a halted block runs (R257). -/
theorem frame_halted {p : Parameters} {s : State} {f : FaultRecord} (h : s.status = .halted f) :
    frame p s = .next s := by
  simp only [frame, h]

end Sys2Proof.Machine
end

