-- ==== Sys2Proof/Tests/Slice0.lean ====
section
/-! SUPPORT. Tests, each on one word, one step or one small state. The expected values are those of
spec/95_test_vectors.md (its vector is named) or of the worked examples in the instruction rules, never the model's own
answers. The last part shows, for each obligation with hypotheses, inputs that meet them. -/

namespace Sys2Proof.Tests

open Sys2Proof Sys2Proof.Machine

/-! ## Helpers -/

/-- A part of the state that a step answers. -/
def view {α : Type} (f : State → α) : Result → Option α
  | .next t => some (f t)
  | .fault _ => none
  | .refused _ => none

/-- The reset state with some registers set. -/
def regs (values : List (Reg × Byte)) : State :=
  values.foldl (fun s p => s.setReg p.1 p.2) State.reset

/-- A state with I set and some bytes stored from there on. -/
def memAt (s : State) (i : Word) (bytes : List Byte) : State :=
  { s with i := i, mem := s.mem.writeBytes i.toNat bytes }

/-- One frame that begins with the word at PC. -/
def run (s : State) (w : Nat) : Result := step (s.withFetchWord 16 w)

/-- One engine step of the lenient machine on the word at PC. -/
def lenient (s : State) (w : Nat) : Result :=
  engineStep { strictConformance := false, allowOddPc := false } (s.withFetchWord 16 w)

/-- One engine step of the strict machine on the word at PC. -/
def strict (s : State) (w : Nat) : Result :=
  engineStep { strictConformance := true, allowOddPc := false } (s.withFetchWord 16 w)

/-! ## Ill-formed operands (30_encoding.md R79) -/

theorem test_addr_4096_refused : (Operands.formA 4096).wellFormed = false ∧ (Operands.formA 4095).wellFormed = true := by
  decide

theorem test_byte_256_refused :
    (Operands.formXK 0 256).wellFormed = false ∧ (Operands.formXK 15 255).wellFormed = true := by decide

theorem test_register_16_refused :
    (Operands.formXK 16 0).wellFormed = false ∧ (Operands.formXY 16 0).wellFormed = false ∧
    (Operands.formXY 0 16).wellFormed = false ∧ (Operands.formXYN 16 0 0).wellFormed = false ∧
    (Operands.formXYN 0 16 0).wellFormed = false ∧ (Operands.formX 16).wellFormed = false ∧
    (Operands.formXY 15 15).wellFormed = true ∧ (Operands.formX 15).wellFormed = true := by decide

theorem test_nibble_16_refused :
    (Operands.formXYN 0 0 16).wellFormed = false ∧ (Operands.formXYN 15 15 15).wellFormed = true := by decide

/-! ## Decoding, on words of 95_test_vectors.md and of the rules' examples, every constructor -/

theorem test_decode_control_flow :
    decodeWord 0x00EE = some .ret ∧ decodeWord 0x1FFF = some (.jp 0xFFF) ∧ decodeWord 0x2ABC = some (.call 0xABC) ∧
    decodeWord 0x3A05 = some (.seByte 0xA 0x05) ∧ decodeWord 0x4542 = some (.sneByte 0x5 0x42) ∧
    decodeWord 0x5120 = some (.seReg 0x1 0x2) ∧ decodeWord 0x9120 = some (.sneReg 0x1 0x2) ∧
    decodeWord 0xB300 = some (.jpV0 0x300) := by decide

theorem test_decode_loads_and_alu :
    decodeWord 0x6FAB = some (.ldByte 0xF 0xAB) ∧ decodeWord 0x7301 = some (.addByte 0x3 0x01) ∧
    decodeWord 0x8120 = some (.ldReg 0x1 0x2) ∧ decodeWord 0x8121 = some (.orReg 0x1 0x2) ∧
    decodeWord 0x8122 = some (.andReg 0x1 0x2) ∧ decodeWord 0x8113 = some (.xorReg 0x1 0x1) ∧
    decodeWord 0x81F4 = some (.addReg 0x1 0xF) ∧ decodeWord 0x8F25 = some (.sub 0xF 0x2) ∧
    decodeWord 0x8126 = some (.shr 0x1 0x2) ∧ decodeWord 0x8127 = some (.subn 0x1 0x2) ∧
    decodeWord 0x810E = some (.shl 0x1 0x0) ∧ decodeWord 0xC30F = some (.rnd 0x3 0x0F) := by decide

theorem test_decode_index_and_memory :
    decodeWord 0xAFFF = some (.ldI 0xFFF) ∧ decodeWord 0xF11E = some (.addI 0x1) ∧ decodeWord 0xF229 = some (.ldF 0x2) ∧
    decodeWord 0xF333 = some (.ldB 0x3) ∧ decodeWord 0xF355 = some (.ldMemVx 0x3) ∧
    decodeWord 0xFF65 = some (.ldVxMem 0xF) := by decide

theorem test_decode_display_keys_timers :
    decodeWord 0x00E0 = some .cls ∧ decodeWord 0xDF13 = some (.drw 0xF 0x1 3) ∧ decodeWord 0xE39E = some (.skp 0x3) ∧
    decodeWord 0xE3A1 = some (.sknp 0x3) ∧ decodeWord 0xF107 = some (.ldVxDt 0x1) ∧
    decodeWord 0xF20A = some (.ldVxK 0x2) ∧ decodeWord 0xF415 = some (.ldDtVx 0x4) ∧
    decodeWord 0xF418 = some (.ldStVx 0x4) := by decide

/-- R76: an unknown word of each family that has some. -/
theorem test_unknown_words :
    [0x0000, 0x0123, 0x00EF, 0x5121, 0x8008, 0x800F, 0x9001, 0xE0FF, 0xE19F, 0xF0FF, 0xF108].all
      (fun w => (decodeTableWord 16 w).isNone) = true := by decide

/-- R70: the byte at the lower address is the high one, and a single byte is no instruction. -/
theorem test_decode_bytes :
    decode [0x60, 0x2A, 0x12] = .ok (.ldByte 0x0 0x2A, [0x12]) ∧ decode [0x51, 0x21] = .error (.unknown 0x5121) ∧
    decode [0x60] = .error .truncated := by decide

/-! ## The step (D-EC vectors) -/

/-- D-EC1. -/
theorem test_step_ld_byte : view (fun t => (t.v[0], t.pc)) (run State.reset 0x602A) = some (0x2A, 0x0202) := by decide

/-- D-EC2, D-EC7. -/
theorem test_odd_pc_faults :
    view (fun t => (t.status, t.pc)) (step { State.reset with pc := 0x0201 }) =
      some (.halted { cause := .misalignedFetch, pc0 := 0x0201, op := none }, 0x0201) ∧
    view (fun t => (t.status, t.pc)) (step { State.reset with pc := 0x0FFF }) =
      some (.halted { cause := .misalignedFetch, pc0 := 0x0FFF, op := none }, 0x0FFF) := by decide

/-- D-EC3, D-EC6: with odd addresses allowed. -/
theorem test_odd_pc_allowed :
    view (fun t => (t.v[1], t.pc))
      (engineStep { strictConformance := false, allowOddPc := true }
        { memAt State.reset 0x201 [0x61, 0x07] with pc := 0x0201 }) = some (0x07, 0x0203) ∧
    view (fun t => t.status)
      (engineStep { strictConformance := false, allowOddPc := true } { State.reset with pc := 0x0FFF }) =
      some (.halted { cause := .memoryOutOfBounds 0x1000, pc0 := 0x0FFF, op := none }) := by decide

/-- D-EC4, D-EC5. -/
theorem test_fetch_bounds :
    view (fun t => t.pc) (run { State.reset with pc := 0x0FFE } 0x1200) = some 0x0200 ∧
    view (fun t => t.status) (step { State.reset with pc := 0x1000 }) =
      some (.halted { cause := .memoryOutOfBounds 0x1000, pc0 := 0x1000, op := none }) := by decide

/-- D-EC8, D-EC11. -/
theorem test_unknown_lenient :
    view (fun t => (t.pc, t.diag, t.status)) (lenient State.reset 0x5121) =
      some (0x0202, [{ pc0 := 0x0200, op := 0x5121 }], .running) ∧
    view (fun t => (t.pc, t.diag)) (lenient State.reset 0x0123) =
      some (0x0202, [{ pc0 := 0x0200, op := 0x0123 }]) := by decide

/-- D-EC9. -/
theorem test_unknown_strict :
    view (fun t => (t.pc, t.status)) (strict State.reset 0x5121) =
      some (0x0200, .halted { cause := .unknownOpcode, pc0 := 0x0200, op := some 0x5121 }) := by decide

/-! ## Control flow (D-CF vectors) -/

/-- S12. -/
theorem test_ret :
    view (fun t => (t.sp.val, t.pc)) (run { State.reset with sp := 2, stack := State.reset.stack.set 1 0x0456 } 0x00EE) =
      some (1, 0x0456) := by decide

/-- D-CF2. -/
theorem test_ret_underflow :
    view (fun t => (t.sp.val, t.pc, t.status)) (run State.reset 0x00EE) =
      some (0, 0x0200, .halted { cause := .stackUnderflow, pc0 := 0x0200, op := some 0x00EE }) := by decide

/-- D-CF5. -/
theorem test_call :
    view (fun t => (t.stack[15], t.sp.val, t.pc)) (run { State.reset with sp := 15 } 0x2300) =
      some (0x0202, 16, 0x0300) := by decide

/-- D-CF4. -/
theorem test_call_overflow :
    view (fun t => (t.stack.toList, t.sp.val, t.pc, t.status)) (run { State.reset with sp := 16 } 0x2300) =
      some (List.replicate 16 0x0000, 16, 0x0200,
        .halted { cause := .stackOverflow, pc0 := 0x0200, op := some 0x2300 }) := by decide

/-- D-CF6. -/
theorem test_jp : view (fun t => t.pc) (run State.reset 0x1FFF) = some 0x0FFF := by decide

/-- D-CF15, D-CF16. -/
theorem test_jp_v0 :
    view (fun t => t.pc) (run (regs [(0x0, 0x04)]) 0xB300) = some 0x0304 ∧
    view (fun t => t.pc) (run (regs [(0x0, 0xFF)]) 0xBFFF) = some 0x10FE := by decide

/-- D-CF8, D-CF9. -/
theorem test_se_byte :
    view (fun t => t.pc) (run (regs [(0x5, 0x42)]) 0x3542) = some 0x0204 ∧
    view (fun t => t.pc) (run (regs [(0x5, 0x42)]) 0x3543) = some 0x0202 ∧
    view (fun t => t.pc) (run (regs [(0xF, 0x01)]) 0x3F01) = some 0x0204 := by decide

/-- D-CF10. -/
theorem test_sne_byte :
    view (fun t => t.pc) (run (regs [(0x5, 0x42)]) 0x4542) = some 0x0202 ∧
    view (fun t => t.pc) (run (regs [(0x5, 0x42)]) 0x4500) = some 0x0204 := by decide

/-- D-CF11, D-CF13. -/
theorem test_se_reg :
    view (fun t => t.pc) (run (regs [(0x1, 0x07), (0x2, 0x07)]) 0x5120) = some 0x0204 ∧
    view (fun t => t.pc) (run (regs [(0x1, 0x07), (0x2, 0x08)]) 0x5120) = some 0x0202 := by decide

/-- D-CF13, D-CF14. -/
theorem test_sne_reg :
    view (fun t => t.pc) (run (regs [(0x1, 0x07), (0x2, 0x08)]) 0x9120) = some 0x0204 ∧
    view (fun t => t.pc) (run (regs [(0x3, 0x55)]) 0x9330) = some 0x0202 := by decide

/-! ## Loads and ALU (D-AL vectors) -/

/-- D-AL2, D-AL3. -/
theorem test_add_byte :
    view (fun t => (t.v[3], t.v[15])) (run (regs [(0x3, 0xFF), (0xF, 0x07)]) 0x7301) = some (0x00, 0x07) ∧
    view (fun t => t.v[15]) (run (regs [(0xF, 0x10)]) 0x7F05) = some 0x15 := by decide

/-- D-AL4. -/
theorem test_ld_reg : view (fun t => (t.v[1], t.v[2])) (run (regs [(0x2, 0x99)]) 0x8120) = some (0x99, 0x99) := by decide

/-- D-AL5. -/
theorem test_or :
    view (fun t => (t.v[1], t.v[15])) (run (regs [(0x1, 0x0F), (0x2, 0xF0), (0xF, 0x05)]) 0x8121) = some (0xFF, 0x05) := by
  decide

/-- D-AL6. -/
theorem test_and : view (fun t => t.v[1]) (run (regs [(0x1, 0x3C), (0x2, 0x0F)]) 0x8122) = some 0x0C := by decide

/-- R135's example, and D-AL7. -/
theorem test_xor :
    view (fun t => t.v[1]) (run (regs [(0x1, 0xFF), (0x2, 0x0F)]) 0x8123) = some 0xF0 ∧
    view (fun t => t.v[1]) (run (regs [(0x1, 0x5A)]) 0x8113) = some 0x00 := by decide

/-- D-AL8, D-AL9. -/
theorem test_add_reg :
    view (fun t => (t.v[1], t.v[15])) (run (regs [(0x1, 0xFF), (0x2, 0x01)]) 0x8124) = some (0x00, 0x01) ∧
    view (fun t => (t.v[1], t.v[15])) (run (regs [(0x1, 0x7F), (0x2, 0x01)]) 0x8124) = some (0x80, 0x00) := by decide

/-- D-AL11, D-AL12. -/
theorem test_add_reg_with_vf :
    view (fun t => t.v[15]) (run (regs [(0xF, 0x80), (0x1, 0x80)]) 0x8F14) = some 0x01 ∧
    view (fun t => (t.v[1], t.v[15])) (run (regs [(0x1, 0x10), (0xF, 0xF0)]) 0x81F4) = some (0x00, 0x01) := by decide

/-- D-AL14, D-AL15. -/
theorem test_sub :
    view (fun t => (t.v[1], t.v[15])) (run (regs [(0x1, 0x03), (0x2, 0x05)]) 0x8125) = some (0xFE, 0x00) ∧
    view (fun t => (t.v[1], t.v[15])) (run (regs [(0x1, 0x05), (0x2, 0x05)]) 0x8125) = some (0x00, 0x01) := by decide

/-- D-AL16. -/
theorem test_sub_with_vf : view (fun t => t.v[15]) (run (regs [(0xF, 0x01), (0x2, 0x02)]) 0x8F25) = some 0x00 := by decide

/-- D-AL17, D-AL18. -/
theorem test_shr :
    view (fun t => (t.v[1], t.v[15])) (run (regs [(0x1, 0x05)]) 0x8106) = some (0x02, 0x01) ∧
    view (fun t => (t.v[1], t.v[15])) (run (regs [(0x1, 0x04), (0x2, 0xFF)]) 0x8126) = some (0x02, 0x00) := by decide

/-- D-AL20, D-AL21. -/
theorem test_subn :
    view (fun t => (t.v[1], t.v[15])) (run (regs [(0x1, 0x03), (0x2, 0x05)]) 0x8127) = some (0x02, 0x01) ∧
    view (fun t => (t.v[1], t.v[15])) (run (regs [(0x1, 0x05), (0x2, 0x03)]) 0x8127) = some (0xFE, 0x00) := by decide

/-- D-AL23, D-AL25. -/
theorem test_shl :
    view (fun t => (t.v[1], t.v[15])) (run (regs [(0x1, 0x81)]) 0x810E) = some (0x02, 0x01) ∧
    view (fun t => t.v[15]) (run (regs [(0xF, 0x80)]) 0x8FFE) = some 0x01 := by decide

/-- R230: one draw, and D-AL26's encoding. D-AL27, that a mask of 00 gives 00, needs the unknown byte and is left to a
proof. -/
theorem test_rnd_draws_once : view (fun t => (t.draws, t.pc)) (run State.reset 0xC30F) = some (1, 0x0202) := by decide

/-! ## Index register and memory (D-MI vectors) -/

/-- D-MI1. -/
theorem test_ld_i : view (fun t => t.i) (run State.reset 0xAFFF) = some 0x0FFF := by decide

/-- D-MI2, D-MI3. -/
theorem test_add_i :
    view (fun t => (t.i, t.v[15])) (run { regs [(0x1, 0x01)] with i := 0x0FFF } 0xF11E) = some (0x1000, 0x00) ∧
    view (fun t => t.i) (run { regs [(0x1, 0x02)] with i := 0xFFFF } 0xF11E) = some 0x0001 := by decide

/-- D-MI4. -/
theorem test_ld_f :
    view (fun t => t.i) (run (regs [(0x2, 0x0F)]) 0xF229) = some 0x004B ∧
    view (fun t => t.i) (run (regs [(0x2, 0x10)]) 0xF229) = some 0x0050 := by decide

/-- D-MI6, D-MI7. -/
theorem test_ld_b :
    view (fun t => t.mem.readBytes 0x300 3) (run { regs [(0x3, 0xFF)] with i := 0x0300 } 0xF333) =
      some [0x02, 0x05, 0x05] ∧
    view (fun t => t.mem.readBytes 0xFFD 3) (run { regs [(0x3, 0x0A)] with i := 0x0FFD } 0xF333) =
      some [0x00, 0x01, 0x00] := by decide

/-- D-MI8. -/
theorem test_ld_b_out_of_bounds :
    view (fun t => (t.mem.read 0xFFE, t.status)) (run { regs [(0x3, 0x0A)] with i := 0x0FFE } 0xF333) =
      some (0x00, .halted { cause := .memoryOutOfBounds 0x1000, pc0 := 0x0200, op := some 0xF333 }) := by decide

/-- D-MI9. -/
theorem test_ld_mem_vx :
    view (fun t => (t.mem.readBytes 0x400 5, t.i))
      (run { regs [(0x0, 0x10), (0x1, 0x20), (0x2, 0x30), (0x3, 0x40), (0x4, 0x50)] with i := 0x0400 } 0xF355) =
      some ([0x10, 0x20, 0x30, 0x40, 0x00], 0x0400) := by decide

/-- D-MI10. -/
theorem test_ld_mem_vx_out_of_bounds :
    view (fun t => (t.mem.readBytes 0xFFE 2, t.status)) (run { regs [(0x0, 0x77)] with i := 0x0FFE } 0xF255) =
      some ([0x00, 0x00], .halted { cause := .memoryOutOfBounds 0x1000, pc0 := 0x0200, op := some 0xF255 }) := by decide

/-- R165's example, with a register above x. -/
theorem test_ld_vx_mem :
    view (fun t => (t.v[0], t.v[1], t.v[2], t.v[3], t.i)) (run (memAt State.reset 0x400 [0xAA, 0xBB, 0xCC, 0xDD]) 0xF265) =
      some (0xAA, 0xBB, 0xCC, 0x00, 0x0400) := by decide

/-- D-MI12. -/
theorem test_ld_vx_mem_out_of_bounds :
    view (fun t => t.status) (run { State.reset with i := 0x1000 } 0xF065) =
      some (.halted { cause := .memoryOutOfBounds 0x1000, pc0 := 0x0200, op := some 0xF065 }) := by decide

/-! ## Display (D-DS vectors) -/

/-- D-DS1. -/
theorem test_cls :
    view (fun t => (t.disp.pixel ⟨7, 5⟩, t.v[15], t.pc))
      (run { regs [(0xF, 0x01)] with disp := Display.flip Display.blank ⟨7, 5⟩ } 0x00E0) = some (false, 0x01, 0x0202) := by
  decide

/-- D-DS5, D-DS11: the row 31 across the right edge, and VF as a coordinate. -/
theorem test_drw_wraps :
    view (fun t => (([60, 61, 62, 63, 0, 1, 2, 3] : List (Fin 64)).map (fun c => t.disp.pixel ⟨31, c⟩),
        t.disp.pixel ⟨31, 4⟩, t.disp.pixel ⟨31, 59⟩, t.v[15]))
      (run (memAt (regs [(0x0, 60), (0x1, 31)]) 0x300 [0xFF]) 0xD011) =
      some (List.replicate 8 true, false, false, 0x00) ∧
    view (fun t => (t.disp.pixel ⟨0, 8⟩, t.v[15])) (run (memAt (regs [(0xF, 0x08)]) 0x300 [0x80]) 0xDF11) =
      some (true, 0x00) := by decide

/-- D-DS10, D-DS8: a collision, and n = 0. -/
theorem test_drw_collision :
    view (fun t => (t.disp.pixel ⟨0, 0⟩, t.disp.pixel ⟨0, 1⟩, t.v[15]))
      (run { memAt State.reset 0x300 [0xC0] with disp := Display.flip Display.blank ⟨0, 1⟩ } 0xD011) =
      some (true, false, 0x01) ∧
    view (fun t => t.v[15]) (run (regs [(0xF, 0x01)]) 0xD000) = some 0x00 := by decide

/-! ## Keys and timers (D-KT vectors) -/

/-- D-KT1, D-KT3. -/
theorem test_skp :
    view (fun t => t.pc) (run { regs [(0x3, 0x0A)] with key := State.reset.key.set 10 true } 0xE39E) = some 0x0204 ∧
    view (fun t => t.status) (run (regs [(0x3, 0x10)]) 0xE39E) =
      some (.halted { cause := .keyIndexOutOfRange 0x10, pc0 := 0x0200, op := some 0xE39E }) := by decide

/-- D-KT2. -/
theorem test_sknp :
    view (fun t => t.pc) (run (regs [(0x3, 0x0A)]) 0xE3A1) = some 0x0204 ∧
    view (fun t => t.pc) (run { regs [(0x3, 0x0A)] with key := State.reset.key.set 10 true } 0xE3A1) = some 0x0202 := by
  decide

/-- D-KT4. -/
theorem test_ld_vx_dt : view (fun t => t.v[1]) (run { State.reset with dt := 0x3C } 0xF107) = some 0x3C := by decide

/-- D-KT5, D-KT6. -/
theorem test_ld_vx_k :
    view (fun t => (t.v[2], t.pc)) (run { regs [(0x2, 0x55)] with pc := 0x0300 } 0xF20A) = some (0x55, 0x0300) ∧
    view (fun t => (t.v[2], t.pc))
      (run { State.reset with pc := 0x0300, key := (State.reset.key.set 9 true).set 3 true } 0xF20A) =
      some (0x03, 0x0302) := by decide

/-- D-KT7: after the step, and after the frame's tick. -/
theorem test_ld_dt_vx :
    view (fun t => t.dt) (lenient (regs [(0x4, 0x05)]) 0xF415) = some 0x05 ∧
    view (fun t => t.dt) (run (regs [(0x4, 0x05)]) 0xF415) = some 0x04 := by decide

/-- D-KT8. -/
theorem test_ld_st_vx :
    view (fun t => (t.st, soundActive t)) (lenient (regs [(0x4, 0x01)]) 0xF418) = some (0x01, true) ∧
    view (fun t => (t.st, soundActive t)) (run (regs [(0x4, 0x01)]) 0xF418) = some (0x00, false) := by decide

/-- D-KT9, D-KT10. -/
theorem test_tick :
    (tick State.reset).dt = 0x00 ∧ (tick { State.reset with dt := 0xFF, st := 0x01 }).dt = 0xFE ∧
    (tick { State.reset with dt := 0xFF, st := 0x01 }).st = 0x00 := by decide

/-- P4, frame 8: the key refresh comes after the step, so the wait does not see the press of its own frame. -/
theorem test_key_refresh :
    view (fun t => (t.pc, t.key[11], t.keyInput))
      (run { State.reset with keyInput := [[{ key := 0xB, pressed := true }]] } 0xF20A) = some (0x0200, true, []) := by
  decide

/-! ## Reset and load -/

/-- S11 and R57, at the ends of the font, and P2's image bytes. -/
theorem test_font_and_load :
    State.reset.mem.readBytes 0x000 5 = [0xF0, 0x90, 0x90, 0x90, 0xF0] ∧
    State.reset.mem.readBytes 0x04B 6 = [0xF0, 0x80, 0xF0, 0x80, 0x80, 0x00] ∧
    (State.reset.loadImage [0xA3, 0x00, 0x60]).mem.readBytes 0x1FF 5 = [0x00, 0xA3, 0x00, 0x60, 0x00] := by decide

/-! ## Witnesses: inputs that meet the hypotheses of the obligations, at the ends of each range -/

/-- A state about to run one word at PC. -/
def about (s : State) (w : Nat) : State := s.withFetchWord 16 w

/-- A state that a fault has halted. -/
def halted : State :=
  { State.reset with status := .halted { cause := .stackUnderflow, pc0 := 0x0200, op := some 0x00EE } }

/-- A state with a sprite of n rows of FF at the given address. -/
def withSprite (i : Word) (n : Nat) : State := memAt State.reset i (List.replicate n 0xFF)

theorem witness_EncodeOfDecodedWord : decodeWord 0x6A05 = some (.ldByte 0xA 0x05) := by decide

theorem witness_DecodingIsExactMatchOnTheMap :
    decodeWord 0x8124 = some (.addReg 0x1 0x2) ∧ decodeWord 0x8128 = none := by decide

theorem witness_UnknownWordsPerFamily :
    (decodeWord 0x00EF = none ∧ field 0x00EF 15 12 = 0x0) ∧ (decodeWord 0x5001 = none ∧ field 0x5001 3 0 = 1) ∧
    (decodeWord 0x900F = none ∧ field 0x900F 15 12 = 0x9) ∧ (decodeWord 0x800F = none ∧ field 0x800F 3 0 = 0xF) ∧
    (decodeWord 0xE0A2 = none ∧ field 0xE0A2 7 0 = 0xA2) ∧ (decodeWord 0xF066 = none ∧ field 0xF066 7 0 = 0x66) := by
  decide

/-- The clauses of the fetch: an odd PC refused, 0x1000 and 0x0FFF beyond the end, 0x0FFE the last word. -/
theorem witness_FetchChecksThenReadsBigEndian :
    (0x0FFF : Word).toNat % 2 = 1 ∧ (0x1000 : Word).toNat % 2 = 0 ∧ (0x1000 : Word).toNat > 0xFFF ∧
    ((0x0FFF : Word).toNat ≤ 0xFFF ∧ (0x0FFF : Word).toNat + 1 > 0xFFF) ∧
    ((0x0FFE : Word).toNat % 2 = 0 ∧ (0x0FFE : Word).toNat + 1 ≤ 0xFFF) := by decide

theorem witness_OddPcHaltsTheBlock :
    ({ State.reset with pc := 0x0201 } : State).status = .running ∧
    ({ State.reset with pc := 0x0201 } : State).pc.toNat % 2 = 1 ∧ parameters.allowOddPc = false := by decide

/-- An unknown word at PC, in both modes. -/
theorem witness_UnknownWords :
    (about State.reset 0x5121).status = .running ∧ decodeWord 0x5121 = none ∧
    fetch { strictConformance := false, allowOddPc := false } (about State.reset 0x5121) = .ok 0x5121 ∧
    fetch { strictConformance := true, allowOddPc := false } (about State.reset 0x5121) = .ok 0x5121 := by decide

/-- A step of a decoded instruction, at the last word of memory. -/
theorem witness_StepRunsTheDecodedInstruction :
    let s := about { State.reset with pc := 0x0FFE } 0x6A05
    s.status = .running ∧ s.pc.toNat % 2 = 0 ∧ s.pc.toNat + 1 ≤ 0xFFF ∧
    decodeWord (wordOfBytes (s.mem.read s.pc.toNat) (s.mem.read (s.pc.toNat + 1))) = some (.ldByte 0xA 0x05) := by decide

/-- An opcode fetched at an odd PC, with odd addresses allowed (D-EC3). -/
theorem witness_StepRunsTheDecodedInstruction_odd :
    let s := { memAt State.reset 0x201 [0x61, 0x07] with pc := 0x0201 }
    s.status = .running ∧ fetch { strictConformance := false, allowOddPc := true } s = .ok 0x6107 ∧
    decodeWord 0x6107 = some (.ldByte 0x1 0x07) := by decide

theorem witness_HaltedBlockNeverChanges :
    halted.status = .halted { cause := .stackUnderflow, pc0 := 0x0200, op := some 0x00EE } := by decide

/-- The three outcomes of a step: it runs on, its fetch faults (at an odd PC, beyond the end, across it), its body
faults. -/
theorem witness_FaultsArePrecise :
    view (fun t => t.status) (engineStep parameters (about State.reset 0x6A05)) = some .running ∧
    fetch parameters { State.reset with pc := 0x0201 } = .error .misalignedFetch ∧
    fetch parameters { State.reset with pc := 0x1000 } = .error (.memoryOutOfBounds 0x1000) ∧
    fetch { strictConformance := false, allowOddPc := true } { State.reset with pc := 0x0FFF } =
      .error (.memoryOutOfBounds 0x1000) ∧
    fetch parameters (about State.reset 0x00EE) = .ok 0x00EE ∧
    view (fun t => t.status) (engineStep parameters (about State.reset 0x00EE)) =
      some (.halted { cause := .stackUnderflow, pc0 := 0x0200, op := some 0x00EE }) := by decide

/-- A state that meets the invariant with a return address in use, and steps. -/
theorem witness_StepKeepsTheMachineInvariant :
    let s := about { State.reset with sp := 1, stack := State.reset.stack.set 0 0x0302 } 0x00EE
    Inv s ∧ ∃ t, step s = .next t := by
  refine ⟨⟨by decide, ?_, by decide, fun f h => ?_⟩, _, rfl⟩
  · show ∀ j : Fin 16, _
    decide
  · exact Status.noConfusion (show Status.running = .halted f from h)

/-- A halted state that meets the invariant, and steps. -/
theorem witness_StepKeepsTheMachineInvariant_halted : Inv halted ∧ ∃ t, step halted = .next t := by
  refine ⟨⟨by decide, fun j hj => absurd hj (Nat.not_lt_zero _), by decide, fun f h => ?_⟩, _, rfl⟩
  injection h with h
  rw [← h]
  rfl

theorem witness_FetchWordIsFetchedNext : (withSprite 0x300 4).mem.wf = true := by decide

theorem witness_TickCountsBothTimersDown :
    let s := about (regs [(0x4, 0x05)]) 0xF415
    s.status = .running ∧ ∃ t, engineStep parameters s = .next t := ⟨rfl, _, rfl⟩

/-- Fx15 then Fy07, as the last two words of memory. -/
theorem witness_DelayTimerReadsBackOneLess :
    let s := memAt { regs [(0x0, 0x01)] with pc := 0x0FFC } 0x0FFC [0xF0, 0x15, 0xF1, 0x07]
    s.status = .running ∧ s.pc.toNat % 2 = 0 ∧ s.pc.toNat + 3 ≤ 0xFFF ∧
    decodeWord (wordOfBytes (s.mem.read s.pc.toNat) (s.mem.read (s.pc.toNat + 1))) = some (.ldDtVx 0x0) ∧
    decodeWord (wordOfBytes (s.mem.read (s.pc.toNat + 2)) (s.mem.read (s.pc.toNat + 3))) = some (.ldVxDt 0x1) := by decide

theorem witness_KeyWriteSetsOneCell : (0xF : Fin 16) ≠ 0x0 := by decide

theorem witness_ComingKeyWritesDoNotReachTheStep :
    let s := about State.reset 0xF20A
    (∃ t, step s = .next t) ∧ ∃ t, step { s with keyInput := [[{ key := 0xB, pressed := true }]] } = .next t :=
  ⟨⟨_, rfl⟩, _, rfl⟩

theorem witness_EngineNeverWritesTheKeyLatch : ∃ t, engineStep parameters (about State.reset 0xF20A) = .next t := ⟨_, rfl⟩

theorem witness_OutputPortsReadTheState : (31 : Fin 32).val * 64 + (63 : Fin 64).val < 2048 := by decide

theorem witness_MemoryPrimitivesCheckTheAddress :
    (0x1000 > 0xFFF) ∧ (0xFFF ≤ 0xFFF) ∧ (withSprite 0x300 4).mem.wf = true := by decide

/-- Two memories written in different orders. -/
theorem witness_EqualCellsMakeEqualMemories :
    let m := Memory.write (Memory.write [] 0x300 1) 0xFFF 2
    let n := Memory.write (Memory.write [] 0xFFF 2) 0x300 1
    m.wf = true ∧ n.wf = true ∧ ∀ a, a < 4096 → m.read a = n.read a :=
  ⟨by decide, by decide, fun _ _ => rfl⟩

theorem witness_FontIsLoadedByteForByte : (⟨fontset.toArray, by decide⟩ : Vector Byte 80).toList = fontset := by decide

/-- An image of the largest size, and one of two bytes with its neighbours. -/
theorem witness_ImageIsLoadedAt0x200 :
    State.reset.mem.wf = true ∧ (List.replicate 3584 (0x12 : Byte)).length ≤ 3584 ∧
    3583 < (List.replicate 3584 (0x12 : Byte)).length ∧ (0x1FF < 0x200) ∧
    0x200 + ([0x12, 0x00] : List Byte).length ≤ 0x202 := by
  rw [List.length_replicate]
  decide

theorem witness_LoadFailsExactlyWhenTooLarge :
    (List.replicate 3585 (0x12 : Byte)).length > 3584 ∧ (List.replicate 3584 (0x12 : Byte)).length ≤ 3584 := by
  rw [List.length_replicate, List.length_replicate]
  decide

/-- F155 at 0x0FFC, with I at the last word of memory. -/
theorem witness_StoreIsSeenByTheNextFetch :
    let s := { about { State.reset with pc := 0x0FFC } 0xF155 with i := 0x0FFE }
    s.mem.wf = true ∧ s.status = .running ∧ s.pc.toNat % 2 = 0 ∧ s.pc.toNat + 3 ≤ 0xFFF ∧
    decodeWord (wordOfBytes (s.mem.read s.pc.toNat) (s.mem.read (s.pc.toNat + 1))) = some (.ldMemVx 0x1) ∧
    1 ≤ (0x1 : Reg).val ∧ s.i.toNat = s.pc.toNat + 2 ∧ s.i.toNat + (0x1 : Reg).val ≤ 0xFFF := by decide

/-- The ends of the stack: 15 and 16 entries for a CALL, 1 and 0 for a RET. -/
theorem witness_CallAndRet :
    ({ State.reset with sp := 15 } : State).sp.val < 16 ∧ ({ State.reset with sp := 16 } : State).sp.val = 16 ∧
    0 < ({ State.reset with sp := 1 } : State).sp.val ∧ State.reset.sp.val = 0 ∧ (14 : Fin 16).val ≠ 15 := by decide

theorem witness_SixteenCallsNestTheNextOverflows :
    State.reset.sp.val = 0 ∧ (List.replicate 16 (0x300 : Addr)).length = 16 := by decide

theorem witness_RetUndoesCall :
    ∃ t, exec (.call 0x300) { State.reset with sp := 15 } = .next t ∧
      ({ t with pc := 0x0400 } : State).sp = t.sp ∧ ({ t with pc := 0x0400 } : State).stack = t.stack :=
  ⟨_, rfl, rfl, rfl⟩

/-- Registers apart from Vx and VF, and Vx apart from VF. -/
theorem witness_RegisterFrames : (0x2 : Reg) ≠ 0x1 ∧ (0x1 : Reg) ≠ VF ∧ (0x2 : Reg) ≠ VF ∧ (6 < 7) := by decide

theorem witness_OnlyRndReadsTheRandomInput :
    (∀ x kk, Instr.cls ≠ .rnd x kk) ∧ ∃ t, exec .cls State.reset = .next t := by
  refine ⟨?_, _, rfl⟩
  intro x kk h
  cases h

/-- The last addresses that each store or load reaches. -/
theorem witness_BlocksInBounds :
    ({ State.reset with i := 0x0FFD } : State).mem.wf = true ∧ ({ State.reset with i := 0x0FFD } : State).i.toNat + 2 ≤ 0xFFF ∧
    ({ State.reset with i := 0x0FF0 } : State).i.toNat + (0xF : Reg).val ≤ 0xFFF ∧ (0x3 : Reg) ≤ 0x3 ∧ (0x3 : Reg) < 0x4 ∧
    (0x2FF : Nat) < 0x300 ∧ 0x300 + 3 ≤ 0x303 := by decide

/-- The first address out of bounds of each block access: the first one, or one further on. -/
theorem witness_BlockAccessIsAllOrNothing :
    (2 < dataBytes (.ldB 0x3) ∧ (0x0FFE : Word).toNat + 2 > 0xFFF ∧ ∀ j, j < 2 → (0x0FFE : Word).toNat + j ≤ 0xFFF) ∧
    (0 < dataBytes (.ldVxMem 0x0) ∧ (0x1000 : Word).toNat + 0 > 0xFFF) ∧
    (15 < dataBytes (.ldMemVx 0xF) ∧ (0x0FF1 : Word).toNat + 15 > 0xFFF) ∧
    (14 < dataBytes (.drw 0x0 0x1 15) ∧ (0x0FF2 : Word).toNat + 14 > 0xFFF) := by decide

/-- The ends of the in-bounds clause of DRW, and the first address beyond it. -/
theorem witness_DrwXorsThePixelsTheSpriteCovers :
    (0 : Fin 16).val = 0 ∧ (0x0FF1 : Word).toNat + (15 : Fin 16).val - 1 ≤ 0xFFF ∧
    0 < (15 : Fin 16).val ∧ (0x0FF2 : Word).toNat + (15 : Fin 16).val - 1 > 0xFFF := by decide

/-- A covered pixel that is clear, one that is set, and a pixel that is not covered. -/
theorem witness_SpriteCovers :
    SpriteCovers (withSprite 0x300 1) 0x0 0x1 1 ⟨0, 7⟩ ∧ (withSprite 0x300 1).disp.pixel ⟨0, 7⟩ = false ∧
    ¬ SpriteCovers (withSprite 0x300 1) 0x0 0x1 1 ⟨1, 0⟩ ∧
    (Display.flip Display.blank ⟨0, 7⟩).pixel ⟨0, 7⟩ = true := by
  refine ⟨⟨0, 7, by decide, by decide, by decide, by decide, by decide⟩, by decide, ?_, by decide⟩
  rintro ⟨r, c, hr, -, -, hy, -⟩
  have h : r = 0 := by omega
  rw [h] at hy
  exact absurd hy (by decide)

theorem witness_DrawingTwiceRestoresTheDisplay :
    let s := withSprite 0x300 5
    s.i.toNat + (5 : Fin 16).val - 1 ≤ 0xFFF ∧ ∃ t, exec (.drw 0x0 0x1 5) s = .next t ∧ t.mem = s.mem ∧
      t.i = s.i ∧ t.v[(0x0 : Reg).val] = s.v[(0x0 : Reg).val] ∧ t.v[(0x1 : Reg).val] = s.v[(0x1 : Reg).val] := by
  refine ⟨by decide, _, rfl, ?_⟩
  decide

theorem witness_OnlyClsAndDrwChangeTheDisplay :
    let s := about (withSprite 0x300 1) 0xD011
    ∃ t, engineStep { strictConformance := true, allowOddPc := true } s = .next t ∧ t.disp ≠ s.disp := by
  refine ⟨_, rfl, ?_⟩
  decide

/-- The highest key number, and the first value above it. -/
theorem witness_KeySkipsReadTheLatch :
    (regs [(0x3, 0x0F)]).v[(0x3 : Reg).val].toNat = (0xF : Fin 16).val ∧
    (regs [(0x3, 0x10)]).v[(0x3 : Reg).val].toNat > 0x0F := by decide

/-- Two keys pressed, and none. -/
theorem witness_KeyWaitTakesTheLowestKey :
    let s := { State.reset with key := (State.reset.key.set 9 true).set 3 true }
    s.key[(3 : Fin 16).val] = true ∧ (∀ j : Fin 16, j < 3 → s.key[j.val] = false) ∧
    ∀ k : Fin 16, State.reset.key[k.val] = false := by decide

theorem witness_KeyWaitRepeatsWhileTimersTick :
    let s := about { State.reset with pc := 0x0300, dt := 0x01 } 0xF20A
    s.status = .running ∧ s.pc.toNat % 2 = 0 ∧ s.pc.toNat + 1 ≤ 0xFFF ∧
    decodeWord (wordOfBytes (s.mem.read s.pc.toNat) (s.mem.read (s.pc.toNat + 1))) = some (.ldVxK 0x2) ∧
    ∀ k : Fin 16, s.key[k.val] = false := by decide

theorem witness_RegistersWrittenAreThoseOfTheTable :
    (∃ t, exec (.ldVxMem 0xE) State.reset = .next t) ∧ (0xF : Reg) ∉ regsWritten (.ldVxMem 0xE) ∧
    (∃ t, exec (.addReg 0x1 0x2) State.reset = .next t) ∧ (0x2 : Reg) ∉ regsWritten (.addReg 0x1 0x2) :=
  ⟨⟨_, rfl⟩, by decide, ⟨_, rfl⟩, by decide⟩

/-- An instruction that changes each of I, the stack and its pointer, the timers and memory. -/
theorem witness_SpecialRegistersHaveTheirOwnWriters :
    view (fun t => t.i) (exec (.ldI 0x123) State.reset) = some 0x0123 ∧
    view (fun t => (t.stack[0], t.sp.val)) (exec (.call 0x300) State.reset) = some (0x0200, 1) ∧
    view (fun t => (t.dt, t.st)) (exec (.ldDtVx 0x4) (regs [(0x4, 0x05)])) = some (0x05, 0x00) ∧
    view (fun t => (t.dt, t.st)) (exec (.ldStVx 0x4) (regs [(0x4, 0x05)])) = some (0x00, 0x05) ∧
    view (fun t => t.mem.read 0x000) (exec (.ldMemVx 0x0) State.reset) = some 0x00 := by decide

/-- A frame whose list presses key B twice and releases it between, and names no other key; the next instruction is SKP
on key B. And a frame with no list. -/
theorem witness_KeyRefreshAppliesTheWritesInOrder :
    let press : KeyWrite := { key := 0xB, pressed := true }
    let release : KeyWrite := { key := 0xB, pressed := false }
    let writes := [press, release, press]
    let s := { memAt (regs [(0x3, 0x0B)]) 0x200 [0xA3, 0x00, 0xE3, 0x9E] with keyInput := [writes, []] }
    s.status = .running ∧ s.keyInput = writes :: [[]] ∧ (∀ w ∈ writes, w.key ≠ 0xF) ∧
    writes = [press, release] ++ press :: [] ∧ (∀ u ∈ ([] : List KeyWrite), u.key ≠ press.key) ∧
    (∃ t, step s = .next t ∧ t.status = .running ∧ fetch parameters t = .ok 0xE39E ∧
      t.v[(0x3 : Reg).val].toNat = press.key.val) ∧
    decodeWord 0xE39E = some (.skp 0x3) ∧ State.reset.keyInput = [] ∧ ∃ t, step State.reset = .next t := by
  refine ⟨rfl, rfl, by decide, rfl, by decide, ⟨_, rfl, rfl, rfl, by decide⟩, by decide, rfl, _, rfl⟩

end Sys2Proof.Tests
end

section
/-! SUPPORT. What the body of an instruction can leave (spec/40_engine_cycle.md R93): said once, by shape, for every
instruction. The frame and invariant statements of spec/10_state.md are case splits on it. -/

namespace Sys2Proof.Machine

/-- The values a body that jumps, skips or waits puts into PC: the instruction again, the next one, the one after it,
or a computed target, none of which passes 0x10FE (10_state.md R25). -/
def PcTarget (s : State) (w : Word) : Prop :=
  w = s.pc - 2 ∨ w = s.pc ∨ w = s.pc + 2 ∨ w.toNat ≤ 0x10FE

/-- The states that the body of an instruction, run on `s`, can leave: a fault, or writes of one shape. -/
inductive BodyEffect (s : State) : Instr → State → Prop
  /-- a fatal fault (R96) -/
  | fault {i : Instr} (c : FaultCause) : BodyEffect s i (faulted i c s)
  /-- general registers of the table of R22, with the display and the count of random bytes -/
  | registers {i : Instr} (v : Vector Byte 16) (disp : Display) (draws : Nat)
      (hv : ∀ r : Reg, r ∉ regsWritten i → v[r.val] = s.v[r.val]) :
      BodyEffect s i { s with v := v, disp := disp, draws := draws }
  /-- PC alone -/
  | jump {i : Instr} {w : Word} (hw : PcTarget s w) : BodyEffect s i (s.setPc w)
  /-- I alone (R24) -/
  | index {i : Instr} (hi : (∃ nnn, i = .ldI nnn) ∨ (∃ x, i = .addI x) ∨ ∃ x, i = .ldF x) (w : Word) :
      BodyEffect s i (s.setI w)
  /-- a return address pushed and a jump (R26) -/
  | call (nnn : Addr) (hsp : s.sp.val < 16) :
      BodyEffect s (.call nnn)
        { s with stack := s.stack.set s.sp.val s.pc, sp := ⟨s.sp.val + 1, by omega⟩, pc := addrWord nnn }
  /-- a return address popped into PC (R26) -/
  | ret (hsp : 0 < s.sp.val) :
      BodyEffect s .ret { s with sp := ⟨s.sp.val - 1, by omega⟩, pc := s.stack[s.sp.val - 1] }
  /-- DT alone (R28) -/
  | delay (x : Reg) (b : Byte) : BodyEffect s (.ldDtVx x) (s.setDt b)
  /-- ST alone (R29) -/
  | sound (x : Reg) (b : Byte) : BodyEffect s (.ldStVx x) (s.setSt b)
  /-- bytes of MEM from I on, all inside the space (20_memory.md R56) -/
  | store {i : Instr} (hi : (∃ x, i = .ldB x) ∨ ∃ x, i = .ldMemVx x) (bytes : List Byte)
      (hb : s.base + bytes.length ≤ memorySize) : BodyEffect s i (s.storeAtI bytes)

/-- An answer is a next state that the body of `i` can leave. -/
def HasEffect (i : Instr) (s : State) (r : Result) : Prop := ∃ t, r = .next t ∧ BodyEffect s i t

theorem BodyEffect.hasEffect {i : Instr} {s t : State} (h : BodyEffect s i t) : HasEffect i s (.next t) := ⟨t, rfl, h⟩

theorem raise_hasEffect (i : Instr) (c : FaultCause) (s : State) : HasEffect i s (raise i c s) :=
  (BodyEffect.fault c).hasEffect

/-- One register of the table written, perhaps with the display or the count of random bytes. -/
theorem BodyEffect.setReg {i : Instr} {s : State} {x : Reg} (hx : x ∈ regsWritten i) (b : Byte) (disp : Display)
    (draws : Nat) : BodyEffect s i ({ s with disp := disp, draws := draws }.setReg x b) := by
  refine .registers _ disp draws fun r hr => ?_
  have hne : r ≠ x := fun e => hr (e ▸ hx)
  exact (s.setReg_get x r b).trans (if_neg hne)

/-- A result and its flag, both in the table. -/
theorem BodyEffect.setResultAndFlag {i : Instr} {s : State} {x : Reg} (h : regsWritten i = [x, VF]) (b f : Byte) :
    BodyEffect s i (s.setResultAndFlag x b f) := by
  refine .registers _ s.disp s.draws fun r hr => ?_
  obtain ⟨hx, hf⟩ : r ≠ x ∧ r ≠ VF := by simpa [h] using hr
  exact (s.setResultAndFlag_get x r b f).trans (by rw [if_neg hf, if_neg hx])

/-- Fx65 loads the registers of its list (R165). -/
theorem BodyEffect.loadFromI (s : State) (x : Reg) : BodyEffect s (.ldVxMem x) (s.loadFromI x) := by
  obtain ⟨hframe, hget⟩ := s.loadFromI_spec x
  rw [hframe]
  refine .registers _ s.disp s.draws fun r hr => ?_
  have hgt : ¬ r ≤ x := by simpa [regsWritten] using hr
  rw [hget, if_neg hgt]

/-- A skip is a jump to the next instruction or to the one after it (R99). -/
theorem BodyEffect.skipIf (i : Instr) (s : State) (b : Bool) : BodyEffect s i (s.skipIf b) := by
  cases b
  · exact .jump (.inr (.inl rfl))
  · exact .jump (.inr (.inr (.inl rfl)))

/-- A check that fails raises its fault; one that succeeds lets the effect happen (20_memory.md R56). -/
theorem guarded_hasEffect {i : Instr} {check : Except FaultCause Unit} {s effect : State}
    (h : check = .ok () → BodyEffect s i effect) : HasEffect i s (guarded i check s effect) := by
  cases hc : check with
  | ok u => exact (h hc).hasEffect
  | error c => exact raise_hasEffect i c s

/-- A block that passes its check ends inside the space (R56). -/
theorem checkBlock_inside {base count : Nat} (hpos : 0 < count) (h : checkBlock base count = .ok ()) :
    base + count ≤ memorySize := by
  unfold checkBlock at h
  unfold memorySize
  split at h
  · omega
  · cases h

/-- A store whose check covers its bytes has its effect or faults (R163, R164). -/
theorem guarded_store_hasEffect {i : Instr} (hi : (∃ x, i = .ldB x) ∨ ∃ x, i = .ldMemVx x) (s : State)
    {bytes : List Byte} {count : Nat} (hlen : bytes.length = count) (hpos : 0 < count) :
    HasEffect i s (guarded i (checkBlock s.base count) s (s.storeAtI bytes)) :=
  guarded_hasEffect fun hc => .store hi bytes (hlen ▸ checkBlock_inside hpos hc)

theorem skipOnKey_hasEffect (i : Instr) (x : Reg) (whenDown : Bool) (s : State) :
    HasEffect i s (skipOnKey i x whenDown s) := by
  unfold skipOnKey
  split
  · exact raise_hasEffect i _ s
  · exact (BodyEffect.skipIf i s _).hasEffect

/-- A 12-bit target keeps its value as a PC (R72). -/
theorem addrWord_toNat (nnn : Addr) : (addrWord nnn).toNat = nnn.toNat := by
  have := nnn.isLt
  simp [addrWord]
  omega

/-- The largest target of `JP V0, addr` is 0xFFF + 0xFF (R117). -/
theorem jpV0_target_le (nnn : Addr) (s : State) : (addrWord nnn + regWord s 0).toNat ≤ 0x10FE := by
  have hn := nnn.isLt
  have hb := (s.reg 0).isLt
  rw [BitVec.toNat_add, addrWord_toNat, regWord, BitVec.toNat_setWidth]
  omega

theorem execJp_hasEffect (nnn : Addr) (s : State) : HasEffect (.jp nnn) s (execJp nnn s) := by
  refine (BodyEffect.jump (.inr (.inr (.inr ?_)))).hasEffect
  rw [addrWord_toNat]
  omega

theorem execCall_hasEffect (nnn : Addr) (s : State) : HasEffect (.call nnn) s (execCall nnn s) := by
  unfold execCall
  by_cases hsp : s.sp.val < 16
  · rw [State.push_of_lt hsp]
    exact (BodyEffect.call nnn hsp).hasEffect
  · rw [State.push_full (by omega)]
    exact raise_hasEffect _ _ s

theorem execRet_hasEffect (s : State) : HasEffect .ret s (execRet s) := by
  unfold execRet
  by_cases hsp : 0 < s.sp.val
  · rw [State.pop_of_pos hsp]
    exact (BodyEffect.ret hsp).hasEffect
  · rw [State.pop_empty (by omega)]
    exact raise_hasEffect _ _ s

theorem execLdVxK_hasEffect (x : Reg) (s : State) : HasEffect (.ldVxK x) s (execLdVxK x s) := by
  unfold execLdVxK
  split
  · exact (BodyEffect.setReg (by simp [regsWritten]) _ _ _).hasEffect
  · exact (BodyEffect.jump (.inl rfl)).hasEffect

/-- Every body answers a next state, and `BodyEffect` says which (R93, R97). -/
theorem exec_hasEffect (i : Instr) (s : State) : HasEffect i s (exec i s) := by
  cases i with
  | cls => exact (BodyEffect.registers s.v Display.blank s.draws fun _ _ => rfl).hasEffect
  | ret => exact execRet_hasEffect s
  | jp nnn => exact execJp_hasEffect nnn s
  | call nnn => exact execCall_hasEffect nnn s
  | seByte | sneByte | seReg | sneReg => exact (BodyEffect.skipIf _ s _).hasEffect
  | ldByte | addByte | ldReg | orReg | andReg | xorReg | rnd | ldVxDt =>
    exact (BodyEffect.setReg (List.mem_singleton_self _) _ _ _).hasEffect
  | addReg | sub | shr | subn | shl => exact (BodyEffect.setResultAndFlag rfl _ _).hasEffect
  | ldI nnn => exact (BodyEffect.index (.inl ⟨nnn, rfl⟩) _).hasEffect
  | addI x => exact (BodyEffect.index (.inr (.inl ⟨x, rfl⟩)) _).hasEffect
  | ldF x => exact (BodyEffect.index (.inr (.inr ⟨x, rfl⟩)) _).hasEffect
  | jpV0 nnn => exact (BodyEffect.jump (.inr (.inr (.inr (jpV0_target_le nnn s))))).hasEffect
  | drw => exact guarded_hasEffect fun _ => .setReg (List.mem_singleton_self _) _ _ _
  | skp | sknp => exact skipOnKey_hasEffect _ _ _ s
  | ldVxK x => exact execLdVxK_hasEffect x s
  | ldDtVx x => exact (BodyEffect.delay x _).hasEffect
  | ldStVx x => exact (BodyEffect.sound x _).hasEffect
  | ldB x => exact guarded_store_hasEffect (.inl ⟨x, rfl⟩) s rfl (by omega)
  | ldMemVx x =>
    exact guarded_store_hasEffect (.inr ⟨x, rfl⟩) s (by rw [List.length_map, regsUpTo_length]) (by omega)
  | ldVxMem x => exact guarded_hasEffect fun _ => .loadFromI s x

/-- The state that a body answers with is one of `BodyEffect`. -/
theorem exec_effect {i : Instr} {s t : State} (h : exec i s = .next t) : BodyEffect s i t := by
  obtain ⟨t', ht', heff⟩ := exec_hasEffect i s
  rw [h] at ht'
  cases ht'
  exact heff

/-- What a step of a running block leaves (R90): a fault with PC at the instruction, the logged no-op of an UNKNOWN
word, or what the body of the fetched instruction leaves. -/
theorem engineStep_cases {p : Parameters} {s t : State} (hrun : s.status = .running) (h : engineStep p s = .next t) :
    (∃ cause op, t = takeFault cause s.pc op s) ∨
      ∃ op, fetch p s = .ok op ∧
        (t = { s.advance with diag := s.diag ++ [{ pc0 := s.pc, op := op }] } ∨
          ∃ i, decodeWord op = some i ∧ BodyEffect s.advance i t) := by
  rw [engineStep_running hrun] at h
  split at h
  case h_1 cause _ =>
    cases h
    exact .inl ⟨cause, none, rfl⟩
  case h_2 op hf =>
    split at h
    case h_1 i hd => exact .inr ⟨op, hf, .inr ⟨i, hd, exec_effect h⟩⟩
    case h_2 =>
      obtain rfl := Host.Outcome.next.inj h
      cases hp : p.strictConformance with
      | true =>
        rw [execUnknown_strict hp, State.advance_pc0]
        exact .inl ⟨.unknownOpcode, some op, rfl⟩
      | false =>
        rw [execUnknown_lenient hp, State.advance_pc0]
        exact .inr ⟨op, hf, .inl rfl⟩

end Sys2Proof.Machine
end

section
/-! PROOFS. Who writes what (spec/10_state.md R22-R31, spec/20_memory.md R50). -/

namespace Sys2Proof.Machine

/-- The general registers outside the table of R22 keep their values. -/
theorem BodyEffect.reg_unchanged {i : Instr} {s t : State} (h : BodyEffect s i t) {r : Reg} (hr : r ∉ regsWritten i) :
    t.v[r.val] = s.v[r.val] := by
  cases h with
  | registers v disp draws hv => exact hv r hr
  | _ => rfl

theorem BodyEffect.index_writers {i : Instr} {s t : State} (h : BodyEffect s i t) (hne : t.i ≠ s.i) :
    (∃ nnn, i = .ldI nnn) ∨ (∃ x, i = .addI x) ∨ ∃ x, i = .ldF x := by
  cases h with
  | index hi => exact hi
  | _ => exact absurd rfl hne

theorem BodyEffect.stack_writers {i : Instr} {s t : State} (h : BodyEffect s i t) (hne : t.stack ≠ s.stack) :
    ∃ nnn, i = .call nnn := by
  cases h with
  | call nnn => exact ⟨nnn, rfl⟩
  | _ => exact absurd rfl hne

theorem BodyEffect.sp_writers {i : Instr} {s t : State} (h : BodyEffect s i t) (hne : t.sp ≠ s.sp) :
    i = .ret ∨ ∃ nnn, i = .call nnn := by
  cases h with
  | ret => exact .inl rfl
  | call nnn => exact .inr ⟨nnn, rfl⟩
  | _ => exact absurd rfl hne

theorem BodyEffect.dt_writers {i : Instr} {s t : State} (h : BodyEffect s i t) (hne : t.dt ≠ s.dt) :
    ∃ x, i = .ldDtVx x := by
  cases h with
  | delay x => exact ⟨x, rfl⟩
  | _ => exact absurd rfl hne

theorem BodyEffect.st_writers {i : Instr} {s t : State} (h : BodyEffect s i t) (hne : t.st ≠ s.st) :
    ∃ x, i = .ldStVx x := by
  cases h with
  | sound x => exact ⟨x, rfl⟩
  | _ => exact absurd rfl hne

theorem BodyEffect.mem_writers {i : Instr} {s t : State} (h : BodyEffect s i t) (hne : t.mem ≠ s.mem) :
    (∃ x, i = .ldB x) ∨ ∃ x, i = .ldMemVx x := by
  cases h with
  | store hi => exact hi
  | _ => exact absurd rfl hne

/-- No body writes the latch, the key writes to come or the events (R31, R38). -/
theorem BodyEffect.ports_unchanged {i : Instr} {s t : State} (h : BodyEffect s i t) :
    t.key = s.key ∧ t.keyInput = s.keyInput ∧ t.diag = s.diag := by
  cases h <;> exact ⟨rfl, rfl, rfl⟩

/-- Settles O58: the registers are written by one shape of effect only, inside the instruction's list. -/
theorem registersWrittenAreThoseOfTheTable : Obligations.RegistersWrittenAreThoseOfTheTable :=
  fun _ _ _ _ h hr => (exec_effect h).reg_unchanged hr

/-- Settles O59, one writer lemma for each part of the state. -/
theorem specialRegistersHaveTheirOwnWriters : Obligations.SpecialRegistersHaveTheirOwnWriters := by
  intro i s t h
  have heff := exec_effect h
  exact ⟨heff.index_writers, heff.stack_writers, heff.sp_writers, heff.dt_writers, heff.st_writers, heff.mem_writers,
    heff.ports_unchanged⟩

/-- Settles O21: neither a fault, nor the no-op of an UNKNOWN word, nor a body writes the latch. -/
theorem engineNeverWritesTheKeyLatch : Obligations.EngineNeverWritesTheKeyLatch := by
  intro p s t h
  cases hst : s.status with
  | halted f =>
    rw [engineStep_halted hst] at h
    cases h
    exact ⟨rfl, rfl⟩
  | running =>
    obtain ⟨cause, op, rfl⟩ | ⟨op, -, rfl | ⟨i, -, heff⟩⟩ := engineStep_cases hst h
    · exact ⟨rfl, rfl⟩
    · exact ⟨rfl, rfl⟩
    · obtain ⟨hkey, hinput, -⟩ := heff.ports_unchanged
      exact ⟨hkey, hinput⟩

end Sys2Proof.Machine
end

section
/-! PROOFS. The machine invariant (spec/10_state.md R25-R27, spec/20_memory.md R51, spec/60_exceptions.md R220). -/

namespace Sys2Proof.Machine

/-- The invariant reads five fields of the state. -/
theorem Inv.congr {s t : State} (h : Inv s) (hmem : t.mem = s.mem) (hsp : t.sp = s.sp) (hstack : t.stack = s.stack)
    (hpc : t.pc = s.pc) (hstatus : t.status = s.status) : Inv t := by
  unfold Inv ReturnAddressesLegal at h ⊢
  rw [hmem, hsp, hstack, hpc, hstatus]
  exact h

/-- While the block runs, the clause on the fault record is empty. -/
theorem Inv.of_running {s : State} (hrun : s.status = .running) (hmem : s.mem.wf = true)
    (hstack : ReturnAddressesLegal s) (hpc : s.pc.toNat ≤ 0x10FE) : Inv s :=
  ⟨hmem, hstack, hpc, fun f hf => by simp [hrun] at hf⟩

/-- A fault at the instruction keeps the invariant: STATUS alone changes (R220). -/
theorem Inv.takeFault {s : State} (h : Inv s) (cause : FaultCause) (op : Option Word) :
    Inv (takeFault cause s.pc op s) := by
  obtain ⟨hmem, hstack, hpc, -⟩ := h
  refine ⟨hmem, hstack, hpc, fun f hf => ?_⟩
  cases hf
  rfl

/-- A push of an even address at most 0x1000 keeps the return addresses legal (R26). -/
theorem ReturnAddressesLegal.push {s : State} (h : ReturnAddressesLegal s) {w : Word}
    (hw : w.toNat % 2 = 0 ∧ w.toNat ≤ 0x1000) (hsp : s.sp.val < 16) (pc : Word) :
    ReturnAddressesLegal { s with stack := s.stack.set s.sp.val w, sp := ⟨s.sp.val + 1, by omega⟩, pc := pc } := by
  intro j hj
  by_cases hj' : j.val = s.sp.val
  · simpa [hj'] using hw
  · simp only [Vector.getElem_set_ne hsp j.isLt (Ne.symm hj')]
    exact h j (by simp only at hj; omega)

/-- A pop leaves fewer return addresses in use (R26). -/
theorem ReturnAddressesLegal.pop {s : State} (h : ReturnAddressesLegal s) (pc : Word) :
    ReturnAddressesLegal { s with sp := ⟨s.sp.val - 1, by omega⟩, pc := pc } :=
  fun j hj => h j (by simp only at hj; omega)

/-- Two more on a PC that does not wrap. -/
theorem toNat_add_two {w : Word} (h : w.toNat + 2 < 0x10000) : (w + 2).toNat = w.toNat + 2 := by
  rw [BitVec.toNat_add]
  exact Nat.mod_eq_of_lt h

/-- The advance past a fetched instruction moves PC by 2, with no wrap (R92). -/
theorem State.advance_pc_toNat {s : State} (hpc : s.pc.toNat + 1 ≤ 0xFFF) :
    s.advance.pc.toNat = s.pc.toNat + 2 :=
  toNat_add_two (by omega)

/-- From where an instruction was fetched, every target of a body is at most 0x10FE (R25). -/
theorem PcTarget.le {s : State} {w : Word} (h : PcTarget s.advance w) (hpc : s.pc.toNat + 1 ≤ 0xFFF) :
    w.toNat ≤ 0x10FE := by
  have hadv := State.advance_pc_toNat hpc
  obtain rfl | rfl | rfl | h := h
  · rw [State.advance_pc, BitVec.add_sub_cancel]
    omega
  · omega
  · rw [toNat_add_two (by omega)]
    omega
  · exact h

/-- The body of an instruction fetched at an even address keeps the invariant. -/
theorem BodyEffect.inv {i : Instr} {s t : State} (hrun : s.status = .running) (hs : Inv s)
    (hpc : s.pc.toNat + 1 ≤ 0xFFF) (heven : s.pc.toNat % 2 = 0) (h : BodyEffect s.advance i t) : Inv t := by
  have ⟨hmem, hstack, _, _⟩ := hs
  have hadv := State.advance_pc_toNat hpc
  have hnext : s.advance.pc.toNat ≤ 0x10FE := by omega
  cases h with
  | fault c =>
    have hfault : faulted i c s.advance = takeFault c s.pc (some (encode i)) s := by
      rw [← State.advance_pc0]
      rfl
    rw [hfault]
    exact hs.takeFault c _
  | registers | index | delay | sound => exact .of_running hrun hmem hstack hnext
  | jump hw => exact .of_running hrun hmem hstack (hw.le hpc)
  | call nnn hsp =>
    have hret : s.advance.pc.toNat % 2 = 0 ∧ s.advance.pc.toNat ≤ 0x1000 := by omega
    refine .of_running hrun hmem (ReturnAddressesLegal.push (s := s.advance) hstack hret hsp _) ?_
    rw [addrWord_toNat]
    omega
  | ret hsp =>
    obtain ⟨-, htop⟩ := hstack ⟨s.sp.val - 1, by omega⟩ (Nat.sub_one_lt_of_lt hsp)
    exact .of_running hrun hmem (ReturnAddressesLegal.pop (s := s.advance) hstack _) (htop.trans (by decide))
  | store _ bytes hb => exact .of_running hrun (Memory.wf_writeBytes hmem hb) hstack hnext

/-- A step of the engine keeps the invariant, when a fetch at an odd PC faults (log entry 4). -/
theorem engineStep_inv {p : Parameters} (hp : p.allowOddPc = false) {s t : State} (hrun : s.status = .running)
    (hs : Inv s) (h : engineStep p s = .next t) : Inv t := by
  obtain ⟨cause, op, rfl⟩ | ⟨op, hf, hbody⟩ := engineStep_cases hrun h
  · exact hs.takeFault cause op
  · obtain ⟨hpc, heven, -⟩ := fetch_ok hf
    have heven : s.pc.toNat % 2 = 0 := by simpa [hp] using heven
    obtain rfl | ⟨i, -, heff⟩ := hbody
    · obtain ⟨hmem, hstack, -, -⟩ := hs
      have hnext : s.advance.pc.toNat ≤ 0x10FE := by
        rw [State.advance_pc_toNat hpc]
        omega
      exact .of_running hrun hmem hstack hnext
    · exact heff.inv hrun hs hpc heven

/-- The tick and the key refresh write no field that the invariant reads (R257). -/
theorem endFrame_inv {s : State} (h : Inv s) : Inv (endFrame s) := by
  rw [endFrame_frame]
  exact h.congr rfl rfl rfl rfl rfl

/-- Settles O14: the engine's step keeps the invariant, and so does the rest of the frame. -/
theorem stepKeepsTheMachineInvariant : Obligations.StepKeepsTheMachineInvariant := by
  intro s t hs h
  unfold step at h
  cases hst : s.status with
  | halted f =>
    rw [frame_halted hst] at h
    cases h
    exact hs
  | running =>
    cases hu : engineStep parameters s with
    | next u =>
      rw [frame_running hst hu] at h
      cases h
      exact endFrame_inv (engineStep_inv rfl hst hs hu)
    | fault r => cases r
    | refused r => simp [frame, hst, hu] at h

/-- Settles O15: at reset MEM lists no cell, no return address is in use, and PC is 0x200. -/
theorem resetMeetsTheMachineInvariant : Obligations.ResetMeetsTheMachineInvariant :=
  .of_running rfl rfl (fun j hj => absurd hj (Nat.not_lt_zero j.val)) (by decide)

end Sys2Proof.Machine
end

section
/-! PROOFS. Memories in canonical form, the ports and the reset values (spec/10_state.md R32, R37, R38, R40). -/

namespace Sys2Proof.Machine

/-- A listed cell is not at its reset contents, so no memory that lists only higher cells agrees with it. -/
theorem Memory.read_ne_of_lt {a : Nat} {w : Byte} {m n : Memory} (hm : Memory.wf ((a, w) :: m) = true)
    (hn : ∀ c ∈ n, a < c.1) : Memory.read ((a, w) :: m) a ≠ n.read a := by
  obtain ⟨-, hw, -, -⟩ := Memory.wf_cons.mp hm
  rw [Memory.read_of_lt hn]
  simpa [Memory.read] using hw

/-- In canonical form every address is above what the first one is above. -/
theorem Memory.lt_of_wf_cons {a b : Nat} {u : Byte} {n : Memory} (hn : Memory.wf ((b, u) :: n) = true) (hab : a < b) :
    ∀ c ∈ (b, u) :: n, a < c.1 := by
  obtain ⟨-, -, hlt, -⟩ := Memory.wf_cons.mp hn
  intro c hc
  rcases List.mem_cons.mp hc with rfl | hc
  · exact hab
  · exact hab.trans (hlt c hc)

/-- Memories with the same first address that read alike have tails that read alike. -/
theorem Memory.read_tail_eq {a : Nat} {w u : Byte} {m n : Memory} (hm : ∀ c ∈ m, a < c.1)
    (hn : ∀ c ∈ n, a < c.1) {b : Nat} (h : Memory.read ((a, w) :: m) b = Memory.read ((a, u) :: n) b) : m.read b = n.read b := by
  by_cases hb : b = a
  · rw [hb, Memory.read_of_lt hm, Memory.read_of_lt hn]
  · simpa [Memory.read, hb] using h

/-- Settles O24, by induction on the first list: the two lists must begin at the same address. -/
theorem equalCellsMakeEqualMemories : Obligations.EqualCellsMakeEqualMemories := by
  intro m
  induction m with
  | nil =>
    intro n _ hn h
    cases n with
    | nil => rfl
    | cons d n =>
      obtain ⟨hd, -, -, -⟩ := Memory.wf_cons.mp hn
      exact absurd (h d.1 hd).symm (Memory.read_ne_of_lt hn (by simp))
  | cons c m ih =>
    intro n hm hn h
    obtain ⟨a, w⟩ := c
    obtain ⟨ha, -, hma, hm'⟩ := Memory.wf_cons.mp hm
    cases n with
    | nil => exact absurd (h a ha) (Memory.read_ne_of_lt hm (by simp))
    | cons d n =>
      obtain ⟨b, u⟩ := d
      obtain ⟨hb, -, hnb, hn'⟩ := Memory.wf_cons.mp hn
      rcases Nat.lt_trichotomy a b with hab | rfl | hba
      · exact absurd (h a ha) (Memory.read_ne_of_lt hm (Memory.lt_of_wf_cons hn hab))
      · have hw : w = u := by simpa [Memory.read] using h a ha
        rw [hw, ih n hm' hn' fun k hk => Memory.read_tail_eq hma hnb (h k hk)]
      · exact absurd (h b hb).symm (Memory.read_ne_of_lt hn (Memory.lt_of_wf_cons hm hba))

/-- Settles O19: the latch is a vector, of which one element is set. -/
theorem keyWriteSetsOneCell : Obligations.KeyWriteSetsOneCell := by
  refine fun s k pressed => ⟨?_, fun j hj => ?_, rfl⟩
  · rw [keyWrite_key, Vector.getElem_set_self]
  · have hne : k.val ≠ j.val := fun e => hj (Fin.ext e.symm)
    rw [keyWrite_key, Vector.getElem_set_ne _ _ hne]

/-- Element `y*64 + x` of the row-major array is the pixel at row y and column x (R38). -/
theorem wrapPixel_rowMajor (y : Fin 32) (x : Fin 64) :
    wrapPixel ((y.val * 64 + x.val) / 64) (y.val * 64 + x.val) = { row := y, col := x } := by
  have hy := y.isLt
  have hx := x.isLt
  simp only [wrapPixel, Pixel.mk.injEq, Fin.ext_iff]
  omega

/-- The sound is on exactly when ST is not zero (60_exceptions.md R227). -/
theorem soundActive_iff (s : State) : soundActive s = true ↔ s.st.toNat ≠ 0 := by
  rw [soundActive, bne_iff_ne]
  exact BitVec.toNat_ne_iff_ne.symm

/-- Settles O22: one lemma for the display, one for the sound; the other two ports are fields. -/
theorem outputPortsReadTheState : Obligations.OutputPortsReadTheState := by
  refine fun s => ⟨fun y x h => ?_, soundActive_iff s, rfl, rfl⟩
  rw [displayRead, Vector.getElem_ofFn, wrapPixel_rowMajor]

/-- Above the font every cell is zero at reset (R251). -/
theorem resetByte_above_font {a : Nat} (h : 0x050 ≤ a) : resetByte a = 0x00 :=
  if_neg (Nat.not_lt.mpr h)

/-- Settles O25: the vectors of the reset state are constant, and the cells above the font are zero. -/
theorem resetGivesTheStatedValues : Obligations.ResetGivesTheStatedValues :=
  ⟨rfl, rfl, rfl, rfl, rfl, rfl, fun _ => Vector.getElem_replicate _, fun _ => Vector.getElem_replicate _,
    Display.pixel_blank, fun _ => Vector.getElem_replicate _, fun _ => resetByte_above_font⟩

end Sys2Proof.Machine
end

section
/-! PROOFS. The memory primitives and the checks of a block access (spec/20_memory.md R51, R56), and a store over the
next instruction (R62). -/

namespace Sys2Proof.Machine

/-- `MemRead` inside the space reads the cell (R51). -/
theorem memRead_ok {m : Memory} {a : Nat} (h : a ≤ 0xFFF) : memRead m a = .ok (m.read a) :=
  if_neg (Nat.not_lt.mpr h)

/-- `MemWrite` inside the space writes the cell (R51). -/
theorem memWrite_ok {m : Memory} {a : Nat} (h : a ≤ 0xFFF) (w : Byte) : memWrite m a w = .ok (m.write a w) :=
  if_neg (Nat.not_lt.mpr h)

/-- Settles O23: the checks are on the address alone, and read-after-write says which cell a write sets. -/
theorem memoryPrimitivesCheckTheAddress : Obligations.MemoryPrimitivesCheckTheAddress := by
  refine fun m a w => ⟨fun h => ⟨if_pos h, if_pos h⟩, memRead_ok, fun h hm => ⟨_, memWrite_ok h w, ?_, fun b hb => ?_⟩⟩
  · rw [Memory.read_write hm, if_pos rfl]
  · rw [Memory.read_write hm, if_neg hb]

/-- When `base + k` is the first address of a block above 0xFFF, it is the one that the check reports (R56). -/
theorem checkBlock_first_bad {base count k : Nat} (hk : k < count) (hbad : base + k > 0xFFF)
    (hfirst : ∀ j, j < k → base + j ≤ 0xFFF) : checkBlock base count = .error (.memoryOutOfBounds (base + k)) := by
  have hlowest : max base 0x1000 = base + k := by
    cases k with
    | zero => omega
    | succ k =>
      have := hfirst k (by omega)
      omega
  rw [checkBlock_error (by omega), hlowest]

/-- An instruction with data bytes checks them all before its effect (R56). -/
theorem exec_eq_guarded {i : Instr} (h : 0 < dataBytes i) (s : State) :
    ∃ effect, exec i s = guarded i (checkBlock s.base (dataBytes i)) s effect := by
  cases i with
  | drw | ldB | ldMemVx | ldVxMem => exact ⟨_, rfl⟩
  | _ => exact absurd h (Nat.lt_irrefl 0)

/-- Settles O49: the check comes first and reports the first bad address. -/
theorem blockAccessIsAllOrNothing : Obligations.BlockAccessIsAllOrNothing := by
  refine ⟨fun _ => rfl, fun i s k hk hbad hfirst => ?_⟩
  obtain ⟨effect, hexec⟩ := exec_eq_guarded (Nat.zero_lt_of_lt hk) s
  rw [hexec]
  exact guarded_error (checkBlock_first_bad hk hbad hfirst)

/-- Fx55 in bounds stores V0..Vx from I on (43_memory_index.md R164). -/
theorem exec_ldMemVx_in_bounds {x : Reg} {s : State} (h : s.i.toNat + x.val ≤ 0xFFF) :
    exec (.ldMemVx x) s = .next (s.storeAtI ((regsUpTo x).map s.reg)) :=
  guarded_ok (checkBlock_ok (.inr h))

/-- After V0..Vx are stored, cell I + k holds Vk (R164). -/
theorem read_storeAtI_regs {x : Reg} {s : State} (hwf : s.mem.wf = true) (h : s.i.toNat + x.val ≤ 0xFFF) {k : Reg}
    (hk : k ≤ x) : (s.storeAtI ((regsUpTo x).map s.reg)).mem.read (s.i.toNat + k.val) = s.v[k.val] := by
  have hlen : ((regsUpTo x).map s.reg).length = x.val + 1 := by rw [List.length_map, regsUpTo_length]
  have hkx : k.val ≤ x.val := hk
  rw [State.storeAtI_mem, State.base_eq, Memory.read_writeBytes hwf (by unfold memorySize; omega),
    dif_pos (by omega)]
  simp [regsUpTo_get]

/-- The end of a frame writes neither PC nor MEM, so the next fetch does not see it (70_reset_and_hazards.md R257). -/
theorem fetch_endFrame (p : Parameters) (s : State) : fetch p (endFrame s) = fetch p s := by
  rw [endFrame_frame]
  rfl

/-- Settles O30: the fetch after Fx55 reads MEM at the cells where V0 and V1 were stored. -/
theorem storeIsSeenByTheNextFetch : Obligations.StoreIsSeenByTheNextFetch := by
  intro s x hwf hrun heven hpc hdec hx hi hbound
  have hfetch : fetch parameters s = .ok _ := fetch_of_even heven (by omega)
  have hstep := (engineStep_exec hrun hfetch hdec).trans (exec_ldMemVx_in_bounds (s := s.advance) hbound)
  refine ⟨_, frame_running hrun hstep, ?_⟩
  have hnext : s.advance.pc.toNat = s.i.toNat := by rw [State.advance_pc_toNat (by omega), hi]
  have h0 := read_storeAtI_regs (s := s.advance) hwf hbound (k := 0) (Nat.zero_le _)
  have h1 := read_storeAtI_regs (s := s.advance) hwf hbound (k := 1) hx
  rw [fetch_endFrame, fetch_of_even (by rw [State.storeAtI_pc]; omega) (by rw [State.storeAtI_pc]; omega),
    State.storeAtI_pc, hnext]
  exact congrArg Except.ok (congrArg₂ wordOfBytes h0 h1)

end Sys2Proof.Machine
end

section
/-! PROOFS. The key writes still to come do not reach the step (spec/20_memory.md R60, 70_reset_and_hazards.md R261):
replacing them commutes with every body, and so with the engine's step. -/

namespace Sys2Proof.Machine

/-- The state with another script of key writes to come (log entry 7). -/
def State.withKeyInput (s : State) (script : List (List KeyWrite)) : State := { s with keyInput := script }

/-- The same answer, with another script of key writes to come in the next state. -/
def withKeyInputAfter (script : List (List KeyWrite)) : Result → Result
  | .next t => .next (t.withKeyInput script)
  | .fault r => .fault r
  | .refused r => .refused r

section Script

variable (s : State) (script : List (List KeyWrite))

/-- A guarded instruction ignores the script when its effect does. -/
theorem guarded_withKeyInput {i : Instr} {check : Except FaultCause Unit} {effect effect' : State}
    (h : effect' = effect.withKeyInput script) :
    guarded i check (s.withKeyInput script) effect' = withKeyInputAfter script (guarded i check s effect) := by
  subst h
  cases check <;> rfl

theorem State.skipIf_withKeyInput (b : Bool) :
    (s.withKeyInput script).skipIf b = (s.skipIf b).withKeyInput script := by
  cases b <;> rfl

theorem State.loadFromI_withKeyInput (x : Reg) :
    (s.withKeyInput script).loadFromI x = (s.loadFromI x).withKeyInput script :=
  List.foldl_hom (fun t : State => t.withKeyInput script) fun _ _ => rfl

theorem skipOnKey_withKeyInput (i : Instr) (x : Reg) (whenDown : Bool) :
    skipOnKey i x whenDown (s.withKeyInput script) = withKeyInputAfter script (skipOnKey i x whenDown s) := by
  have hreg : (s.withKeyInput script).reg x = s.reg x := rfl
  unfold skipOnKey
  rw [hreg]
  cases keyNumber (s.reg x) with
  | none => rfl
  | some k => exact congrArg _ (s.skipIf_withKeyInput script _)

theorem execCall_withKeyInput (nnn : Addr) :
    execCall nnn (s.withKeyInput script) = withKeyInputAfter script (execCall nnn s) := by
  unfold execCall
  by_cases hsp : s.sp.val < 16
  · rw [State.push_of_lt hsp, State.push_of_lt (s := s.withKeyInput script) hsp]
    rfl
  · have hfull : s.sp.val = 16 := by omega
    rw [State.push_full hfull, State.push_full (s := s.withKeyInput script) hfull]
    rfl

theorem execRet_withKeyInput : execRet (s.withKeyInput script) = withKeyInputAfter script (execRet s) := by
  unfold execRet
  by_cases hsp : 0 < s.sp.val
  · rw [State.pop_of_pos hsp, State.pop_of_pos (s := s.withKeyInput script) hsp]
    rfl
  · have hempty : s.sp.val = 0 := by omega
    rw [State.pop_empty hempty, State.pop_empty (s := s.withKeyInput script) hempty]
    rfl

theorem execLdVxK_withKeyInput (x : Reg) :
    execLdVxK x (s.withKeyInput script) = withKeyInputAfter script (execLdVxK x s) := by
  have hkey : (s.withKeyInput script).lowestKey = s.lowestKey := rfl
  unfold execLdVxK
  rw [hkey]
  cases s.lowestKey <;> rfl

/-- No body reads the script of key writes to come. -/
theorem exec_withKeyInput (i : Instr) :
    exec i (s.withKeyInput script) = withKeyInputAfter script (exec i s) := by
  cases i with
  | ret => exact execRet_withKeyInput s script
  | call nnn => exact execCall_withKeyInput s script nnn
  | seByte | sneByte | seReg | sneReg => exact congrArg Host.Outcome.next (s.skipIf_withKeyInput script _)
  | skp x | sknp x => exact skipOnKey_withKeyInput s script _ x _
  | ldVxK x => exact execLdVxK_withKeyInput s script x
  | drw | ldB | ldMemVx => exact guarded_withKeyInput s script rfl
  | ldVxMem x => exact guarded_withKeyInput s script (s.loadFromI_withKeyInput script x)
  | _ => rfl

theorem execUnknown_withKeyInput (p : Parameters) (op : Word) :
    execUnknown p op (s.withKeyInput script) = (execUnknown p op s).withKeyInput script := by
  unfold execUnknown
  split <;> rfl

/-- The engine's step does not read the script of key writes to come (R60). -/
theorem engineStep_withKeyInput (p : Parameters) (hrun : s.status = .running) :
    engineStep p (s.withKeyInput script) = withKeyInputAfter script (engineStep p s) := by
  have hfetch : fetch p (s.withKeyInput script) = fetch p s := rfl
  rw [engineStep_running hrun, engineStep_running (s := s.withKeyInput script) hrun, hfetch]
  cases fetch p s with
  | error cause => rfl
  | ok op =>
    cases hd : decodeWord op with
    | some i =>
      simp only [hd]
      exact exec_withKeyInput s.advance script i
    | none =>
      simp only [hd]
      exact congrArg Host.Outcome.next (execUnknown_withKeyInput s.advance script p op)

theorem tick_withKeyInput : tick (s.withKeyInput script) = (tick s).withKeyInput script := by
  cases hst : s.status with
  | running =>
    rw [tick_running hst, tick_running (s := s.withKeyInput script) hst]
    rfl
  | halted f => rw [tick_halted hst, tick_halted (s := s.withKeyInput script) hst]

/-- The tick reads no key, so the rest of a frame differs by the script in the latch and the later writes alone. -/
theorem endFrame_withKeyInput :
    endFrame (s.withKeyInput script) =
      { endFrame s with key := (endFrame (s.withKeyInput script)).key,
                        keyInput := (endFrame (s.withKeyInput script)).keyInput } := by
  rw [endFrame_frame s, endFrame_frame (s.withKeyInput script), tick_withKeyInput]
  rfl

end Script

/-- A frame of a running block is the engine's step and then the end of the frame (R257). -/
theorem frame_next {p : Parameters} {s t : State} (hrun : s.status = .running) (h : frame p s = .next t) :
    ∃ u, engineStep p s = .next u ∧ t = endFrame u := by
  cases hu : engineStep p s with
  | next u =>
    rw [frame_running hrun hu] at h
    exact ⟨u, rfl, (Host.Outcome.next.inj h).symm⟩
  | fault r => cases r
  | refused r => simp [frame, hrun, hu] at h

/-- Settles O20: the step commutes with replacing the script, which only the key refresh at the frame's end reads. -/
theorem comingKeyWritesDoNotReachTheStep : Obligations.ComingKeyWritesDoNotReachTheStep := by
  intro s t t' script h h'
  change frame parameters (s.withKeyInput script) = .next t' at h'
  unfold step at h
  cases hst : s.status with
  | halted f =>
    rw [frame_halted hst] at h
    rw [frame_halted (s := s.withKeyInput script) hst] at h'
    cases h
    cases h'
    rfl
  | running =>
    obtain ⟨u, hu, rfl⟩ := frame_next hst h
    obtain ⟨u', hu', rfl⟩ := frame_next (s := s.withKeyInput script) hst h'
    rw [engineStep_withKeyInput s script parameters hst, hu] at hu'
    cases hu'
    exact endFrame_withKeyInput u script

end Sys2Proof.Machine
end

section
/-! PROOFS. Decoding and encoding are inverse, and decoding is exact match on the opcode map (spec/30_encoding.md). -/

namespace Sys2Proof

/-- A field of a masked word is the field under the mask's field (00_scope.md R8). -/
theorem field_and (op mask : Word) (hi lo : Nat) : field (op &&& mask) hi lo = field op hi lo &&& field mask hi lo := by
  simp only [field_eq, BitVec.toNat_and, Nat.and_div_two_pow, Nat.and_mod_two_pow]

theorem field_lt (op : Word) (hi lo : Nat) : field op hi lo < 2 ^ (hi - lo + 1) := Nat.mod_lt _ (Nat.two_pow_pos _)

/-- A field that the mask covers whole is kept (R73). -/
theorem field_and_of_full {op mask : Word} {hi lo : Nat} (h : field mask hi lo = 2 ^ (hi - lo + 1) - 1) :
    field (op &&& mask) hi lo = field op hi lo := by
  rw [field_and, h, Nat.and_two_pow_sub_one_of_lt_two_pow (field_lt op hi lo)]

/-- A field that the mask leaves free is cleared (R73). -/
theorem field_and_of_free {op mask : Word} {hi lo : Nat} (h : field mask hi lo = 0) : field (op &&& mask) hi lo = 0 := by
  rw [field_and, h, Nat.and_zero]

section Formats
/-! ## A word is its format's encoding of its own fields (R71) -/

variable {w : Word} {f : Nat}

theorem encodeA_fieldNNN (hf : field w 15 12 = f) : encodeA f (fieldNNN w) = w := by
  apply BitVec.eq_of_toNat_eq
  have := w.isLt
  simp [← hf, encodeA, fieldNNN, field_eq]
  omega

theorem encodeXK_fieldX_fieldKK (hf : field w 15 12 = f) : encodeXK f (fieldX w) (fieldKK w) = w := by
  apply BitVec.eq_of_toNat_eq
  have := w.isLt
  simp [← hf, encodeXK, fieldX, fieldKK, field_eq]
  omega

theorem encodeXY_fieldX_fieldY {n : Fin 16} (hf : field w 15 12 = f) (hn : field w 3 0 = n.val) :
    encodeXY f (fieldX w) (fieldY w) n = w := by
  apply BitVec.eq_of_toNat_eq
  have := w.isLt
  simp [← hf, ← hn, encodeXY, fieldX, fieldY, field_eq]
  omega

theorem encodeX_fieldX {ss : Nat} (hf : field w 15 12 = f) (hs : field w 7 0 = ss) : encodeX f (fieldX w) ss = w := by
  apply BitVec.eq_of_toNat_eq
  have := w.isLt
  simp [← hf, ← hs, encodeX, fieldX, field_eq]
  omega

end Formats

/-! ## Round trips -/

/-- The decoder selects by the fields that the instruction's format fixes, and reads the others back (R73, R74). -/
theorem decodeWord_encode (i : Instr) : decodeWord (encode i) = some i := by
  cases i with
  | cls | ret => rfl
  | jp | call | ldI | jpV0 => simp [encode, decodeWord, encodeA_fields]
  | seByte | sneByte | ldByte | addByte | rnd => simp [encode, decodeWord, encodeXK_fields]
  | seReg | sneReg | drw => simp [encode, decodeWord, encodeXY_fields, Fin.ext_iff, fieldN_eq]
  | ldReg | orReg | andReg | xorReg | addReg | sub | shr | subn | shl =>
    simp [encode, decodeWord, decodeFamily8, encodeXY_fields]
  | skp | sknp => simp [encode, decodeWord, decodeFamilyE, encodeX_fields]
  | ldVxDt | ldVxK | ldDtVx | ldStVx | addI | ldF | ldB | ldMemVx | ldVxMem =>
    simp [encode, decodeWord, decodeFamilyF, encodeX_fields]

/-- Settles O1: the two bytes make the word again, and the decoder reads back the fields that the encoder writes. -/
theorem decodeOfEncodedInstruction : Obligations.DecodeOfEncodedInstruction := by
  intro i rest
  refine ⟨decodeWord_encode i, ?_⟩
  simp [encodeBytes, decode, wordOfBytes_split, decodeWord_encode]

section Families

variable {w : Word} {i : Instr}

theorem encode_of_decodeFamily8 (hf : field w 15 12 = 0x8) (h : decodeFamily8 w = some i) : encode i = w := by
  unfold decodeFamily8 at h
  split at h <;> rename_i hn <;> cases h <;> exact encodeXY_fieldX_fieldY hf hn

theorem encode_of_decodeFamilyE (hf : field w 15 12 = 0xE) (h : decodeFamilyE w = some i) : encode i = w := by
  unfold decodeFamilyE at h
  split at h <;> rename_i hs <;> cases h <;> exact encodeX_fieldX hf hs

theorem encode_of_decodeFamilyF (hf : field w 15 12 = 0xF) (h : decodeFamilyF w = some i) : encode i = w := by
  unfold decodeFamilyF at h
  split at h <;> rename_i hs <;> cases h <;> exact encodeX_fieldX hf hs

end Families

/-- Settles O2: by the families of the word's top nibble, each of one format. -/
theorem encodeOfDecodedWord : Obligations.EncodeOfDecodedWord := by
  intro w i h
  unfold decodeWord at h
  split at h
  case h_1 =>
    split_ifs at h with hcls hret
    · cases h; exact hcls.symm
    · cases h; exact hret.symm
  case h_2 hf | h_3 hf | h_11 hf | h_12 hf => cases h; exact encodeA_fieldNNN hf
  case h_4 hf | h_5 hf | h_7 hf | h_8 hf | h_13 hf => cases h; exact encodeXK_fieldX_fieldKK hf
  case h_6 hf | h_10 hf =>
    split_ifs at h with hn
    cases h
    exact encodeXY_fieldX_fieldY hf (congrArg Fin.val hn)
  case h_14 hf => cases h; exact encodeXY_fieldX_fieldY hf rfl
  case h_9 hf => exact encode_of_decodeFamily8 hf h
  case h_15 hf => exact encode_of_decodeFamilyE hf h
  case h_16 hf => exact encode_of_decodeFamilyF hf h
  case h_17 => cases h

/-! ## The UNKNOWN words (R76) -/

/-- Family 8 reads the low nibble (R75). -/
theorem decodeFamily8_eq_none_iff (w : Word) :
    decodeFamily8 w = none ↔ field w 3 0 ∈ [0x8, 0x9, 0xA, 0xB, 0xC, 0xD, 0xF] := by
  have hlt : field w 3 0 < 16 := field_lt w 3 0
  interval_cases hn : field w 3 0 <;> simp [decodeFamily8, hn]

/-- Family E reads the low byte. -/
theorem decodeFamilyE_eq_none_iff (w : Word) : decodeFamilyE w = none ↔ field w 7 0 ∉ [0x9E, 0xA1] := by
  unfold decodeFamilyE
  split <;> simp_all

/-- Family F reads the low byte (R75). -/
theorem decodeFamilyF_eq_none_iff (w : Word) :
    decodeFamilyF w = none ↔ field w 7 0 ∉ [0x07, 0x0A, 0x15, 0x18, 0x1E, 0x29, 0x33, 0x55, 0x65] := by
  unfold decodeFamilyF
  split <;> simp_all

/-- Settles O4: by the families of the word's top nibble; those that the statement leaves out decode every word. -/
theorem unknownWordsPerFamily : Obligations.UnknownWordsPerFamily := by
  intro w
  have hlt := field_lt w 15 12
  unfold decodeWord
  split
  case h_1 hf => split_ifs <;> simp_all
  case h_6 hf | h_10 hf => simp [hf, Fin.ext_iff, fieldN_eq]
  case h_9 hf => simp [hf, decodeFamily8_eq_none_iff]
  case h_15 hf => simp [hf, decodeFamilyE_eq_none_iff]
  case h_16 hf => simp [hf, decodeFamilyF_eq_none_iff]
  case h_2 hf | h_3 hf | h_4 hf | h_5 hf | h_7 hf | h_8 hf | h_11 hf | h_12 hf | h_13 hf | h_14 hf => simp [hf]
  case h_17 => grind -- a nibble has no seventeenth value

/-! ## The opcode map (R74) -/

theorem OpcodeRow.covers_iff {r : OpcodeRow} {w : Word} : r.covers w = true ↔ w &&& r.mask = r.pattern := beq_iff_eq

/-- A row that matches a word has the word's value in every field its mask covers whole (R73). -/
theorem OpcodeRow.field_eq_of_covers {r : OpcodeRow} {w : Word} {hi lo : Nat} (h : r.covers w = true)
    (hm : field r.mask hi lo = 2 ^ (hi - lo + 1) - 1) : field w hi lo = field r.pattern hi lo := by
  rw [← field_and_of_full hm, OpcodeRow.covers_iff.mp h]

/-- No two rows of the map match one word: they differ in a bit that both masks cover (R74). -/
theorem opcodeMap_disjoint : ∀ r ∈ opcodeMap, ∀ r' ∈ opcodeMap,
    r.pattern &&& r'.mask = r'.pattern &&& r.mask → r = r' := by decide

/-- At most one row of the map matches a word (R73). -/
theorem eq_of_covers {r r' : OpcodeRow} {w : Word} (hr : r ∈ opcodeMap) (hr' : r' ∈ opcodeMap)
    (h : r.covers w = true) (h' : r'.covers w = true) : r = r' := by
  rw [OpcodeRow.covers_iff] at h h'
  apply opcodeMap_disjoint r hr r' hr'
  calc r.pattern &&& r'.mask = w &&& r.mask &&& r'.mask := by rw [h]
    _ = w &&& r'.mask &&& r.mask := by rw [BitVec.and_assoc, BitVec.and_comm r.mask, BitVec.and_assoc]
    _ = r'.pattern &&& r.mask := by rw [h']

/-- Every instruction has a row in the map (R74). -/
theorem row_mem_opcodeMap (i : Instr) : i.row ∈ opcodeMap := by
  cases i <;> exact of_decide_eq_true rfl

/-! ## An instruction's word matches its row: each mask clears the operand fields of its format -/

section Masks

variable {f : Nat}

/-- The mask of a whole family leaves the top nibble, in every format (R74). -/
theorem and_family_mask {w : Word} (hf : field w 15 12 = f) : w &&& 0xF000 = encodeA f 0 := by
  have h : encodeA f (fieldNNN (w &&& 0xF000)) = w &&& 0xF000 :=
    encodeA_fieldNNN ((field_and_of_full (by decide)).trans hf)
  rw [← h, fieldNNN, field_and_of_free (by decide)]
  rfl

theorem encodeXY_and_mask (hf : f < 16) (x y : Reg) (n : Fin 16) : encodeXY f x y n &&& 0xF00F = encodeXY f 0 0 n := by
  obtain ⟨h1, -, -, h4⟩ := encodeXY_fields hf x y n
  have h := encodeXY_fieldX_fieldY (w := encodeXY f x y n &&& 0xF00F) (n := n)
    ((field_and_of_full (by decide)).trans h1) ((field_and_of_full (by decide)).trans h4)
  rw [← h]
  congr 1
  · exact Fin.ext (field_and_of_free (by decide))
  · exact Fin.ext (field_and_of_free (by decide))

theorem encodeX_and_mask {ss : Nat} (hf : f < 16) (hs : ss < 256) (x : Reg) :
    encodeX f x ss &&& 0xF0FF = encodeX f 0 ss := by
  obtain ⟨h1, -, h3⟩ := encodeX_fields hf hs x
  have h := encodeX_fieldX (w := encodeX f x ss &&& 0xF0FF)
    ((field_and_of_full (by decide)).trans h1) ((field_and_of_full (by decide)).trans h3)
  rw [← h]
  congr 1
  exact Fin.ext (field_and_of_free (by decide))

end Masks

/-- An instruction's word has the fixed bits of its row, whatever the operands (R74). -/
theorem encode_and_row_mask (i : Instr) : encode i &&& i.row.mask = i.row.pattern := by
  cases i with
  | cls | ret => rfl
  | jp nnn | call nnn | ldI nnn | jpV0 nnn => exact (and_family_mask (encodeA_fields (by decide) nnn).1).trans rfl
  | seByte x kk | sneByte x kk | ldByte x kk | addByte x kk | rnd x kk =>
    exact (and_family_mask (encodeXK_fields (by decide) x kk).1).trans rfl
  | drw x y n => exact (and_family_mask (encodeXY_fields (by decide) x y n).1).trans rfl
  | seReg x y | sneReg x y | ldReg x y | orReg x y | andReg x y | xorReg x y | addReg x y | sub x y | shr x y
  | subn x y | shl x y => exact encodeXY_and_mask (by decide) x y _
  | skp x | sknp x | ldVxDt x | ldVxK x | ldDtVx x | ldStVx x | addI x | ldF x | ldB x | ldMemVx x | ldVxMem x =>
    exact encodeX_and_mask (by decide) (by decide) x

/-! ## A word that a row matches decodes -/

/-- A row of the first kind fixes one word that decodes, or a family that decodes every word. -/
theorem opcodeRowsByFamily_fields : ∀ r ∈ opcodeRowsByFamily,
    (r.mask = 0xFFFF ∧ decodeWord r.pattern ≠ none) ∨
      (field r.mask 15 12 = 0xF ∧ field r.pattern 15 12 ∉ [0x0, 0x5, 0x8, 0x9, 0xE, 0xF]) := by decide

/-- A row of the second kind fixes a family and a low nibble that the family decodes. -/
theorem opcodeRowsByNibble_fields : ∀ r ∈ opcodeRowsByNibble, field r.mask 15 12 = 0xF ∧ field r.mask 3 0 = 0xF ∧
    ((field r.pattern 15 12 = 0x5 ∨ field r.pattern 15 12 = 0x9) ∧ field r.pattern 3 0 = 0 ∨
      field r.pattern 15 12 = 0x8 ∧ field r.pattern 3 0 ∉ [0x8, 0x9, 0xA, 0xB, 0xC, 0xD, 0xF]) := by decide

/-- A row of the third kind fixes a family and a low byte that the family decodes. -/
theorem opcodeRowsByByte_fields : ∀ r ∈ opcodeRowsByByte, field r.mask 15 12 = 0xF ∧ field r.mask 7 0 = 0xFF ∧
    (field r.pattern 15 12 = 0xE ∧ field r.pattern 7 0 ∈ [0x9E, 0xA1] ∨
      field r.pattern 15 12 = 0xF ∧
        field r.pattern 7 0 ∈ [0x07, 0x0A, 0x15, 0x18, 0x1E, 0x29, 0x33, 0x55, 0x65]) := by decide

section Covered

variable {r : OpcodeRow} {w : Word}

theorem decodes_of_family_row (hr : r ∈ opcodeRowsByFamily) (h : r.covers w = true) : decodeWord w ≠ none := by
  rcases opcodeRowsByFamily_fields r hr with ⟨hm, hd⟩ | ⟨hm, hf⟩
  · have hw : w = r.pattern := by
      rw [← OpcodeRow.covers_iff.mp h, hm]
      exact BitVec.and_allOnes.symm
    rwa [hw]
  · rw [← OpcodeRow.field_eq_of_covers h hm] at hf
    rw [Ne, unknownWordsPerFamily w]
    simp_all

theorem decodes_of_nibble_row (hr : r ∈ opcodeRowsByNibble) (h : r.covers w = true) : decodeWord w ≠ none := by
  obtain ⟨hmf, hmn, hp⟩ := opcodeRowsByNibble_fields r hr
  rw [← OpcodeRow.field_eq_of_covers h hmf, ← OpcodeRow.field_eq_of_covers h hmn] at hp
  rw [Ne, unknownWordsPerFamily w]
  rcases hp with ⟨hf | hf, hn⟩ | ⟨hf, hn⟩ <;> simp [hf, hn, -List.mem_cons]

theorem decodes_of_byte_row (hr : r ∈ opcodeRowsByByte) (h : r.covers w = true) : decodeWord w ≠ none := by
  obtain ⟨hmf, hms, hp⟩ := opcodeRowsByByte_fields r hr
  rw [← OpcodeRow.field_eq_of_covers h hmf, ← OpcodeRow.field_eq_of_covers h hms] at hp
  rw [Ne, unknownWordsPerFamily w]
  rcases hp with ⟨hf, hs⟩ | ⟨hf, hs⟩ <;> simp [hf, hs, -List.mem_cons]

/-- No row of the map matches an UNKNOWN word (R73, R76). -/
theorem decodeWord_ne_none_of_covers (hr : r ∈ opcodeMap) (h : r.covers w = true) : decodeWord w ≠ none := by
  rcases List.mem_append.mp hr with hr | hr
  · rcases List.mem_append.mp hr with hr | hr
    · exact decodes_of_family_row hr h
    · exact decodes_of_nibble_row hr h
  · exact decodes_of_byte_row hr h

end Covered

/-- Settles O3: a decoded word is its instruction's word, which matches the instruction's row, and rows are disjoint. -/
theorem decodingIsExactMatchOnTheMap : Obligations.DecodingIsExactMatchOnTheMap := by
  intro w
  refine ⟨fun i hi => ?_, fun hnone r hr => ?_⟩
  · have hcov : i.row.covers w = true := by
      rw [← encodeOfDecodedWord w i hi, OpcodeRow.covers_iff]
      exact encode_and_row_mask i
    exact ⟨row_mem_opcodeMap i, hcov, fun r hr h => eq_of_covers hr (row_mem_opcodeMap i) h hcov⟩
  · exact Bool.eq_false_iff.mpr fun h => decodeWord_ne_none_of_covers hr h hnone

/-- Settles O5: the words are literals, and the decoder evaluates on each. -/
theorem testVectorWordsDecode : Obligations.TestVectorWordsDecode := by
  unfold Obligations.TestVectorWordsDecode
  decide

end Sys2Proof
end

section
/-! PROOFS. The engine cycle (spec/40_engine_cycle.md R90-R98): the fetch, one lemma per way a step can go, and the
fault that undoes the advance. -/

namespace Sys2Proof.Machine

/-! ## The fetch (R91) -/

/-- An odd PC is refused before MEM is read (60_exceptions.md R214). -/
theorem fetch_misaligned {p : Parameters} {s : State} (hodd : s.pc.toNat % 2 = 1) (hp : p.allowOddPc = false) :
    fetch p s = .error .misalignedFetch := by
  rw [fetch_eq, if_pos ⟨hodd, hp⟩]

/-- At a PC that the alignment check passes, the two bounds checks and the reads are left. -/
theorem fetch_aligned {p : Parameters} {s : State} (h : s.pc.toNat % 2 = 0 ∨ p.allowOddPc = true) :
    fetch p s =
      if s.pc.toNat > 0xFFF then .error (.memoryOutOfBounds s.pc.toNat)
      else if s.pc.toNat + 1 > 0xFFF then .error (.memoryOutOfBounds (s.pc.toNat + 1))
      else .ok (wordOfBytes (s.mem.read s.pc.toNat) (s.mem.read (s.pc.toNat + 1))) := by
  have hpass : ¬ (s.pc.toNat % 2 = 1 ∧ p.allowOddPc = false) := by
    rintro ⟨hodd, hp⟩
    simp [hodd, hp] at h
  rw [fetch_eq, if_neg hpass]

/-- Settles O6: the branches of the fetch, one by one. -/
theorem fetchChecksThenReadsBigEndian : Obligations.FetchChecksThenReadsBigEndian := by
  refine fun p s => ⟨fetch_misaligned, fun h => ?_⟩
  rw [fetch_aligned h]
  refine ⟨fun hpc => if_pos hpc, fun hpc hnext => ?_, fun hnext => ⟨_, ?_, wordOfBytes_toNat _ _⟩⟩
  · rw [if_neg (by omega), if_pos hnext]
  · rw [if_neg (by omega), if_neg (by omega)]

theorem fetchable_iff {pc : Word} : fetchable pc = true ↔ pc.toNat % 2 = 0 ∧ pc.toNat + 1 ≤ 0xFFF := by
  simp [fetchable]

/-- `withFetchWord` leaves a PC that an instruction can be fetched from: the old one, or the entry point. -/
theorem State.withFetchWord_fetchable (s : State) (nbits w : Nat) :
    fetchable (s.withFetchWord nbits w).pc = true := by
  change fetchable (if fetchable s.pc then s.pc else 0x0200) = true
  split
  · assumption
  · decide

/-- A word stored big-endian at PC is the word that the fetch gives (20_memory.md R53). -/
theorem fetch_of_stored_word {p : Parameters} {s : State} {m : Memory} {op : Word} (hm : m.wf = true)
    (hpc : fetchable s.pc = true) (hmem : s.mem = m.writeBytes s.pc.toNat [highByte op, lowByte op]) :
    fetch p s = .ok op := by
  obtain ⟨heven, hbound⟩ := fetchable_iff.mp hpc
  have hread := Memory.read_writeBytes (ws := [highByte op, lowByte op]) (base := s.pc.toNat) hm
    (by simp [memorySize]; omega)
  have hhigh : s.mem.read s.pc.toNat = highByte op := by rw [hmem, hread]; simp
  have hlow : s.mem.read (s.pc.toNat + 1) = lowByte op := by rw [hmem, hread]; simp
  rw [fetch_of_even heven hbound, hhigh, hlow, wordOfBytes_split]

/-- Settles O16: `withFetchWord` stores the word, reduced to 16 bits, at a PC that can be fetched from. -/
theorem fetchWordIsFetchedNext : Obligations.FetchWordIsFetchedNext := by
  refine fun s w hwf => ⟨?_, rfl⟩
  have hword : BitVec.ofNat 16 (w % 2 ^ 16) = BitVec.ofNat 16 w := BitVec.eq_of_toNat_eq (by simp)
  rw [← hword]
  exact fetch_of_stored_word hwf (s.withFetchWord_fetchable 16 w) rfl

/-! ## The ways a step can go (R90) -/

/-- A step whose fetch faults halts the block with no opcode in the record (R96). -/
theorem engineStep_fetch_error {p : Parameters} {s : State} {cause : FaultCause} (hrun : s.status = .running)
    (hf : fetch p s = .error cause) : engineStep p s = .next (takeFault cause s.pc none s) := by
  rw [engineStep_running hrun, hf]

/-- A step whose word is UNKNOWN runs the UNKNOWN body (R94, R95). -/
theorem engineStep_unknown {p : Parameters} {s : State} {op : Word} (hrun : s.status = .running)
    (hf : fetch p s = .ok op) (hd : decodeWord op = none) :
    engineStep p s = .next (execUnknown p op s.advance) := by
  rw [engineStep_running hrun, hf]
  simp only [hd]

/-- A fault raised after the advance undoes it: the old state, STATUS apart (60_exceptions.md R220). -/
theorem takeFault_advance (s : State) (cause : FaultCause) (op : Option Word) :
    takeFault cause s.advance.pc0 op s.advance =
      { s with status := .halted { cause := cause, pc0 := s.pc, op := op } } := by
  rw [State.advance_pc0]
  rfl

/-- Settles O8: the UNKNOWN body of the lenient mode, after the advance. -/
theorem unknownWordIsALoggedNoOp : Obligations.UnknownWordIsALoggedNoOp := by
  intro p s op hrun hp hf hd
  rw [engineStep_unknown hrun hf hd, execUnknown_lenient hp, State.advance_pc0]
  rfl

/-- Settles O9: the UNKNOWN body of the strict mode raises a fault, which undoes the advance. -/
theorem unknownWordIsFatalInStrictMode : Obligations.UnknownWordIsFatalInStrictMode := by
  refine ⟨rfl, fun p s op hrun hp hf hd => ?_⟩
  rw [engineStep_unknown hrun hf hd, execUnknown_strict hp, takeFault_advance]

/-- Settles O10: the fetch of an even PC inside the space gives the word, whose body answers a next state. -/
theorem stepRunsTheDecodedInstruction : Obligations.StepRunsTheDecodedInstruction := by
  refine ⟨fun s i hrun heven hbound hd => ?_, fun p s op i hrun hf hd => engineStep_exec hrun hf hd⟩
  obtain ⟨t, ht, -⟩ := exec_hasEffect i s.advance
  have hbody : exec i { s with pc := s.pc + 2 } = .next t := ht
  have hstep := (engineStep_exec (p := parameters) hrun (fetch_of_even heven hbound) hd).trans ht
  rw [hbody]
  exact frame_running hrun hstep

/-- Settles O11: the engine's step, the tick and the frame each ignore a halted block. -/
theorem haltedBlockNeverChanges : Obligations.HaltedBlockNeverChanges :=
  fun _ _ _ h => ⟨engineStep_halted h, tick_halted h, frame_halted h⟩

/-! ## Every step answers, and its faults are precise (R96, R97) -/

/-- The engine's step answers a next state, whichever way it goes (R97). -/
theorem engineStep_next (p : Parameters) (s : State) : ∃ t, engineStep p s = .next t := by
  cases hst : s.status with
  | halted f => exact ⟨s, engineStep_halted hst⟩
  | running =>
    cases hf : fetch p s with
    | error cause => exact ⟨_, engineStep_fetch_error hst hf⟩
    | ok op =>
      cases hd : decodeWord op with
      | none => exact ⟨_, engineStep_unknown hst hf hd⟩
      | some i =>
        obtain ⟨t, ht, -⟩ := exec_hasEffect i s.advance
        exact ⟨t, (engineStep_exec hst hf hd).trans ht⟩

/-- Settles O12: the bodies by `exec_hasEffect`, and a frame adds nothing that could stop it. -/
theorem everyStepAnswersANextState : Obligations.EveryStepAnswersANextState := by
  refine ⟨fun i s => ?_, fun s => ?_⟩
  · obtain ⟨t, ht, -⟩ := exec_hasEffect i s
    exact ⟨t, ht⟩
  · cases hst : s.status with
    | halted f => exact ⟨s, frame_halted hst⟩
    | running =>
      obtain ⟨t, ht⟩ := engineStep_next parameters s
      exact ⟨endFrame t, frame_running hst ht⟩

/-- A body leaves STATUS alone or takes a fault of its own instruction (R96). -/
theorem BodyEffect.status_unchanged_or_faulted {i : Instr} {s t : State} (h : BodyEffect s i t) :
    t.status = s.status ∨ ∃ cause, t = faulted i cause s := by
  cases h with
  | fault c => exact .inr ⟨c, rfl⟩
  | _ => exact .inl rfl

/-- Settles O13: a fetch fault, the fault of an UNKNOWN word and that of a body each undo the advance; the opcode of a
body's record is the fetched word, because that word is the encoding of the instruction it decodes to. -/
theorem faultsArePrecise : Obligations.FaultsArePrecise := by
  intro p s t hrun h
  cases hf : fetch p s with
  | error cause =>
    rw [engineStep_fetch_error hrun hf] at h
    cases h
    exact .inr (.inl ⟨cause, rfl, rfl⟩)
  | ok op =>
    cases hd : decodeWord op with
    | none =>
      rw [engineStep_unknown hrun hf hd] at h
      obtain rfl := Host.Outcome.next.inj h
      cases hp : p.strictConformance with
      | true => exact .inr (.inr ⟨op, .unknownOpcode, rfl, by rw [execUnknown_strict hp, takeFault_advance]⟩)
      | false => exact .inl ⟨by rw [execUnknown_lenient hp]; exact hrun, op, rfl⟩
    | some i =>
      rw [engineStep_exec hrun hf hd] at h
      obtain hstatus | ⟨cause, rfl⟩ := (exec_effect h).status_unchanged_or_faulted
      · exact .inl ⟨hstatus.trans hrun, op, rfl⟩
      · obtain rfl := encodeOfDecodedWord op i hd
        exact .inr (.inr ⟨encode i, cause, rfl, takeFault_advance s cause _⟩)

end Sys2Proof.Machine
end

section
/-! PROOFS. Control flow (spec/41_control_flow.md R110-R118): the words of the five instruction shapes, and one lemma
for each way that CALL and RET can go. -/

namespace Sys2Proof

/-- The word of an instruction decodes to it, however that word is written (spec/30_encoding.md R73). -/
theorem decodeWord_of_encode_eq {i : Instr} {w : Word} (h : encode i = w) : decodeWord w = some i :=
  h ▸ decodeWord_encode i

/-- A format XK word, with each field under its weight (spec/30_encoding.md R71). -/
theorem encodeXK_eq_weights (f : Nat) (x : Reg) (kk : Byte) :
    encodeXK f x kk = BitVec.ofNat 16 (f * 0x1000 + 0x100 * x.val + kk.toNat) := by
  rw [encodeXK, Nat.mul_comm x.val]

/-- A format XY word whose sub-operation is 0, with each field under its weight (spec/30_encoding.md R71). -/
theorem encodeXY_zero_eq_weights (f : Nat) (x y : Reg) :
    encodeXY f x y 0 = BitVec.ofNat 16 (f * 0x1000 + 0x100 * x.val + 0x10 * y.val) := by
  rw [encodeXY, Nat.mul_comm x.val, Nat.mul_comm y.val, Fin.val_zero, Nat.add_zero]

end Sys2Proof

namespace Sys2Proof.Machine

/-! ## Jumps (R111, R117) -/

/-- The target of `JP V0, addr` is the exact sum: 0xFFF + 0xFF is below 2^16 (R117). -/
theorem jpV0_target_toNat (nnn : Addr) (s : State) :
    (addrWord nnn + regWord s 0).toNat = nnn.toNat + s.v[0].toNat := by
  have hn := nnn.isLt
  have hb := s.v[0].isLt
  have hreg : (regWord s 0).toNat = s.v[0].toNat := BitVec.toNat_setWidth_of_le (by decide)
  rw [BitVec.toNat_add, addrWord_toNat, hreg]
  omega

/-- Settles O31: a 12-bit target keeps its value as a PC, and the sum with V0 does not wrap. -/
theorem jumpsSetThePc : Obligations.JumpsSetThePc := by
  refine fun nnn s => ⟨decodeWord_of_encode_eq (i := .jp nnn) rfl, decodeWord_of_encode_eq (i := .jpV0 nnn) rfl, ?_, ?_⟩
  · exact ⟨_, rfl, addrWord_toNat nnn, rfl⟩
  · exact ⟨_, rfl, jpV0_target_toNat nnn s, rfl⟩

/-! ## The return-address stack (R110, R112, R118) -/

/-- CALL below the capacity pushes PC and jumps (R112). -/
theorem exec_call_of_lt {s : State} (h : s.sp.val < 16) (nnn : Addr) :
    exec (.call nnn) s =
      .next { s with stack := s.stack.set s.sp.val s.pc, sp := ⟨s.sp.val + 1, by omega⟩, pc := addrWord nnn } := by
  change execCall nnn s = _
  rw [execCall, State.push_of_lt h]
  rfl

/-- CALL on a full stack faults (R112). -/
theorem exec_call_full {s : State} (h : s.sp.val = 16) (nnn : Addr) :
    exec (.call nnn) s = .next (faulted (.call nnn) .stackOverflow s) := by
  change execCall nnn s = _
  rw [execCall, State.push_full h]
  rfl

/-- RET on a stack that is not empty pops the top entry into PC (R110). -/
theorem exec_ret_of_pos {s : State} (h : 0 < s.sp.val) :
    exec .ret s = .next { s with sp := ⟨s.sp.val - 1, by omega⟩, pc := s.stack[s.sp.val - 1] } := by
  change execRet s = _
  rw [execRet, State.pop_of_pos h]
  rfl

/-- RET on an empty stack faults (R110). -/
theorem exec_ret_empty {s : State} (h : s.sp.val = 0) : exec .ret s = .next (faulted .ret .stackUnderflow s) := by
  change execRet s = _
  rw [execRet, State.pop_empty h]
  rfl

/-- Settles O32: the entry under SP is set to PC and the others are not it; a full stack faults. -/
theorem callPushesTheReturnAddress : Obligations.CallPushesTheReturnAddress := by
  refine fun nnn s => ⟨decodeWord_of_encode_eq (i := .call nnn) rfl, fun h => ?_, fun h => exec_call_full h nnn⟩
  refine ⟨_, exec_call_of_lt h nnn, rfl, Vector.getElem_set_self h, fun j hj => ?_, addrWord_toNat nnn, rfl⟩
  exact Vector.getElem_set_ne h j.isLt hj.symm

/-- Settles O33: the pop leaves the entries alone; an empty stack faults. -/
theorem retPopsTheReturnAddress : Obligations.RetPopsTheReturnAddress :=
  ⟨rfl, decodeWord_encode .ret, fun _ => ⟨fun h => ⟨_, exec_ret_of_pos h, rfl, rfl, rfl⟩, exec_ret_empty⟩⟩

/-- Settles O35: RET reads the entry that CALL wrote, under the SP that CALL found. -/
theorem retUndoesCall : Obligations.RetUndoesCall := by
  refine fun nnn s h => ⟨_, exec_call_of_lt h nnn, fun u hsp hstack => ?_⟩
  have hval : u.sp.val = s.sp.val + 1 := congrArg Fin.val hsp
  have htop : u.stack[u.sp.val - 1] = s.pc := by simp [hstack, hval]
  have hback : (⟨u.sp.val - 1, by omega⟩ : Fin 17) = s.sp := Fin.ext (by simp [hval])
  rw [exec_ret_of_pos (by omega), htop, hback]

/-! ## Conditional skips (R113-R116) -/

/-- A skip whose test decides a condition moves PC by a further 2 when the condition holds (spec/40_engine_cycle.md
R99). -/
theorem State.skipIf_of_iff (s : State) {b : Bool} {P : Prop} [Decidable P] (h : b = true ↔ P) :
    s.skipIf b = { s with pc := if P then s.pc + 2 else s.pc } := by
  rw [State.skipIf_eq]
  simp only [h]

/-- Settles O36: each word is its format's, and each test decides its condition. -/
theorem skipsFollowTheirConditions : Obligations.SkipsFollowTheirConditions :=
  fun x y kk s =>
    ⟨decodeWord_of_encode_eq (i := .seByte x kk) (encodeXK_eq_weights 0x3 x kk),
      decodeWord_of_encode_eq (i := .sneByte x kk) (encodeXK_eq_weights 0x4 x kk),
      decodeWord_of_encode_eq (i := .seReg x y) (encodeXY_zero_eq_weights 0x5 x y),
      decodeWord_of_encode_eq (i := .sneReg x y) (encodeXY_zero_eq_weights 0x9 x y),
      congrArg Host.Outcome.next (s.skipIf_of_iff beq_iff_eq), congrArg Host.Outcome.next (s.skipIf_of_iff bne_iff_ne),
      congrArg Host.Outcome.next (s.skipIf_of_iff beq_iff_eq), congrArg Host.Outcome.next (s.skipIf_of_iff bne_iff_ne)⟩

end Sys2Proof.Machine
end

section
/-! PROOFS. Register loads, the ALU and the random byte (spec/42_load_alu.md R130-R143): what each register holds after
the two kinds of register write, what each 8-bit result and flag is worth, and the statements assembled from these. -/

namespace Sys2Proof.Machine

/-! ## The registers after a write (R21, R143) -/

theorem State.setReg_get_self (s : State) (x : Reg) (b : Byte) : (s.setReg x b).v[x.val] = b :=
  (s.setReg_get x x b).trans (if_pos rfl)

theorem State.setReg_get_of_ne (s : State) {x r : Reg} (b : Byte) (h : r ≠ x) :
    (s.setReg x b).v[r.val] = s.v[r.val] :=
  (s.setReg_get x r b).trans (if_neg h)

/-- The result stays in Vx, unless VF is Vx and the flag replaces it (R143). -/
theorem State.setResultAndFlag_get_result (s : State) {x : Reg} (b f : Byte) (h : x ≠ VF) :
    (s.setResultAndFlag x b f).v[x.val] = b := by
  rw [State.setResultAndFlag_get, if_neg h, if_pos rfl]

/-- The flag is in VF for every x, being written last (R143). -/
theorem State.setResultAndFlag_get_flag (s : State) (x : Reg) (b f : Byte) :
    (s.setResultAndFlag x b f).v[VF.val] = f :=
  (s.setResultAndFlag_get x VF b f).trans (if_pos rfl)

theorem State.setResultAndFlag_get_of_ne (s : State) {x r : Reg} (b f : Byte) (hx : r ≠ x) (hf : r ≠ VF) :
    (s.setResultAndFlag x b f).v[r.val] = s.v[r.val] := by
  rw [State.setResultAndFlag_get, if_neg hf, if_neg hx]

/-! ## The 8-bit results (R131, R136-R140, R142) -/

theorem sum8_toNat (a b : Byte) : (sum8 a b).toNat = (a.toNat + b.toNat) % 256 := BitVec.toNat_ofNat _ 8

/-- The added 256 of R142 keeps the subtraction in range and does not show modulo 256. -/
theorem diff8_toNat (a b : Byte) : ((diff8 a b).toNat : Int) = ((a.toNat : Int) - b.toNat) % 256 := by
  have hnat : (diff8 a b).toNat = (a.toNat + 256 - b.toNat) % 256 := BitVec.toNat_ofNat _ 8
  have hb := b.isLt
  omega

/-- Halving is the shift right by one. -/
theorem half8_eq_shift (a : Byte) : half8 a = a >>> 1 := by
  have ha := a.isLt
  apply BitVec.eq_of_toNat_eq
  rw [half8, BitVec.toNat_ofNat, BitVec.toNat_ushiftRight, Nat.shiftRight_one]
  omega

/-- Doubling, truncated to a byte, is the shift left by one. -/
theorem double8_eq_shift (a : Byte) : double8 a = a <<< 1 := by
  apply BitVec.eq_of_toNat_eq
  rw [double8, BitVec.toNat_ofNat, BitVec.toNat_shiftLeft, Nat.shiftLeft_eq, Nat.pow_one, Nat.mul_comm]

theorem half8_getLsbD (a : Byte) (k : Nat) : (half8 a).getLsbD k = a.getLsbD (k + 1) := by
  rw [half8_eq_shift, BitVec.getLsbD_ushiftRight, Nat.add_comm]

theorem double8_getLsbD_zero (a : Byte) : (double8 a).getLsbD 0 = false := by
  simp [double8_eq_shift]

theorem double8_getLsbD_succ (a : Byte) {k : Nat} (h : k < 7) : (double8 a).getLsbD (k + 1) = a.getLsbD k := by
  have hk : k + 1 < 8 := Nat.succ_lt_succ h
  rw [double8_eq_shift, BitVec.getLsbD_shiftLeft, decide_eq_true hk, Nat.add_sub_cancel]
  simp

/-! ## The flags (R136-R140) -/

theorem flagByte_toNat (b : Bool) : (flagByte b).toNat = if b then 1 else 0 := by
  cases b <;> rfl

theorem flagByte_decide_toNat (P : Prop) [Decidable P] : (flagByte (decide P)).toNat = if P then 1 else 0 := by
  simp only [flagByte_toNat, decide_eq_true_eq]

theorem carryFlag_toNat (a b : Byte) : (carryFlag a b).toNat = if a.toNat + b.toNat > 0xFF then 1 else 0 :=
  flagByte_decide_toNat _

theorem noBorrowFlag_toNat (a b : Byte) : (noBorrowFlag a b).toNat = if a.toNat ≥ b.toNat then 1 else 0 :=
  flagByte_decide_toNat _

theorem lowBitFlag_toNat (a : Byte) : (lowBitFlag a).toNat = if a.getLsbD 0 then 1 else 0 := flagByte_toNat _

theorem highBitFlag_toNat (a : Byte) : (highBitFlag a).toNat = if a.getLsbD 7 then 1 else 0 := flagByte_toNat _

/-! ## The instructions -/

/-- Settles O37: each word is its format's, and the one register written is Vx. -/
theorem immediateLoadAndAddLeaveVF : Obligations.ImmediateLoadAndAddLeaveVF := by
  refine fun x kk s =>
    ⟨decodeWord_of_encode_eq (i := .ldByte x kk) (encodeXK_eq_weights 0x6 x kk),
      decodeWord_of_encode_eq (i := .addByte x kk) (encodeXK_eq_weights 0x7 x kk), ?_, ?_⟩
  · exact ⟨_, rfl, s.setReg_get_self x kk, fun _ => s.setReg_get_of_ne kk, rfl⟩
  · refine ⟨_, rfl, ?_, fun _ => s.setReg_get_of_ne _, rfl⟩
    rw [State.setReg_get_self, sum8_toNat, State.reg_eq]

/-- A byte known bit by bit, written to Vx alone (R133, R134, R135). -/
theorem next_setReg_bits (s : State) (x : Reg) {b : Byte} {bit : Nat → Bool} (hb : ∀ k, b.getLsbD k = bit k) :
    ∃ t, (.next (s.setReg x b) : Result) = .next t ∧ (∀ k, t.v[x.val].getLsbD k = bit k) ∧
      (∀ r : Reg, r ≠ x → t.v[r.val] = s.v[r.val]) ∧ t = { s with v := t.v } := by
  refine ⟨_, rfl, fun k => ?_, fun _ => s.setReg_get_of_ne b, rfl⟩
  rw [State.setReg_get_self, hb]

/-- Settles O38: the bits of an OR, AND or XOR combine those of the operands, and the one register written is Vx. -/
theorem copyAndLogicWriteOnlyVx : Obligations.CopyAndLogicWriteOnlyVx :=
  fun x _ s =>
    ⟨⟨_, rfl, s.setReg_get_self x _, fun _ => s.setReg_get_of_ne _, rfl⟩,
      next_setReg_bits s x fun _ => BitVec.getLsbD_or,
      next_setReg_bits s x fun _ => BitVec.getLsbD_and,
      next_setReg_bits s x fun _ => BitVec.getLsbD_xor⟩

/-- Settles O39: the sum is in Vx unless the carry replaces it, and the carry is in VF. -/
theorem addWritesSumThenCarry : Obligations.AddWritesSumThenCarry := by
  refine fun x y s => ⟨_, rfl, fun hx => ?sum, ?carry, fun _ => s.setResultAndFlag_get_of_ne _ _, rfl⟩
  case sum => rw [s.setResultAndFlag_get_result _ _ hx, sum8_toNat, State.reg_eq, State.reg_eq]
  case carry => rw [State.setResultAndFlag_get_flag, carryFlag_toNat, State.reg_eq, State.reg_eq]

/-- A difference and its flag, written to Vx and VF (R137, R139): SUB and SUBN are this with the operands in one order
and in the other. -/
theorem next_setResultAndFlag_diff8 (s : State) (x : Reg) (a b : Byte) :
    ∃ t, (.next (s.setResultAndFlag x (diff8 a b) (noBorrowFlag a b)) : Result) = .next t ∧
      (x ≠ VF → (t.v[x.val].toNat : Int) = ((a.toNat : Int) - b.toNat) % 256) ∧
      t.v[VF.val].toNat = (if a.toNat ≥ b.toNat then 1 else 0) ∧
      (∀ r : Reg, r ≠ x → r ≠ VF → t.v[r.val] = s.v[r.val]) ∧ t = { s with v := t.v } := by
  refine ⟨_, rfl, fun hx => ?difference, ?noBorrow, fun _ => s.setResultAndFlag_get_of_ne _ _, rfl⟩
  case difference => rw [s.setResultAndFlag_get_result _ _ hx, diff8_toNat]
  case noBorrow => rw [State.setResultAndFlag_get_flag, noBorrowFlag_toNat]

/-- Settles O40: SUB subtracts Vy from Vx, and SUBN Vx from Vy. -/
theorem subtractWritesDifferenceThenNoBorrow : Obligations.SubtractWritesDifferenceThenNoBorrow :=
  fun x y s =>
    ⟨next_setResultAndFlag_diff8 s x s.v[x.val] s.v[y.val], next_setResultAndFlag_diff8 s x s.v[y.val] s.v[x.val]⟩

/-- Settles O41: halving and doubling move every bit one place, and the flag is the bit that has no place to go. -/
theorem shiftsShiftVxAndIgnoreVy : Obligations.ShiftsShiftVxAndIgnoreVy := by
  refine fun x y s => ⟨?shr, ?shl⟩
  case shr =>
    refine ⟨_, rfl, fun hx k => ?_, ?_, fun _ => s.setResultAndFlag_get_of_ne _ _, rfl⟩
    · rw [s.setResultAndFlag_get_result _ _ hx, half8_getLsbD, State.reg_eq]
    · rw [State.setResultAndFlag_get_flag, lowBitFlag_toNat, State.reg_eq]
  case shl =>
    refine ⟨_, rfl, fun hx => ?_, ?_, fun _ => s.setResultAndFlag_get_of_ne _ _, rfl⟩
    · rw [s.setResultAndFlag_get_result _ _ hx, State.reg_eq]
      exact ⟨double8_getLsbD_zero _, fun _ => double8_getLsbD_succ _⟩
    · rw [State.setResultAndFlag_get_flag, highBitFlag_toNat, State.reg_eq]

/-- Settles O42: the word is its format's, and Vx is the AND of this draw's byte and kk. -/
theorem randomByteIsMasked : Obligations.RandomByteIsMasked := by
  refine fun x kk s =>
    ⟨decodeWord_of_encode_eq (i := .rnd x kk) (encodeXK_eq_weights 0xC x kk), _, rfl, fun k => ?_, ?_, rfl⟩
  · rw [loadMasked, State.setReg_get_self, BitVec.getLsbD_and]
  · exact fun _ => State.setReg_get_of_ne _ _

end Sys2Proof.Machine
end

section
/-! PROOFS. The index register and the memory blocks (spec/43_memory_index.md R160-R166): what a store from I leaves
in memory, whatever its bytes are, and the values that the five instructions compute. -/

namespace Sys2Proof.Machine

/-! ## A store from I (R56, R163, R164) -/

section StoreAtI

variable {s : State} {bytes : List Byte} (hwf : s.mem.wf = true) (hend : s.base + bytes.length ≤ memorySize)
include hwf hend

/-- The bytes stored stand at I, I + 1, ... -/
theorem State.storeAtI_read_inside {k : Nat} (hk : k < bytes.length) :
    (s.storeAtI bytes).mem.read (s.base + k) = bytes[k] := by
  rw [State.storeAtI_mem, Memory.read_writeBytes hwf hend, dif_pos ⟨Nat.le_add_right _ k, Nat.add_lt_add_left hk _⟩]
  simp only [Nat.add_sub_cancel_left]

/-- A cell below or above the bytes stored is as before. -/
theorem State.storeAtI_read_outside {b : Nat} (hb : b < s.base ∨ s.base + bytes.length ≤ b) :
    (s.storeAtI bytes).mem.read b = s.mem.read b := by
  rw [State.storeAtI_mem, Memory.read_writeBytes hwf hend, dif_neg (by omega)]

end StoreAtI

/-- LD B in bounds stores the three digits of Vx (R163). -/
theorem exec_ldB_in_bounds {x : Reg} {s : State} (h : s.i.toNat + 2 ≤ 0xFFF) :
    exec (.ldB x) s = .next (s.storeAtI (bcdDigits s.v[x.val])) :=
  guarded_ok (checkBlock_ok (.inr h))

/-- Each digit of a byte fits a byte, so none is truncated (R163). -/
theorem bcdDigits_toNat (b : Byte) :
    (bcdDigits b).map BitVec.toNat = [b.toNat / 100, b.toNat / 10 % 10, b.toNat % 10] := by
  have hb := b.isLt
  simp only [bcdDigits, List.map_cons, List.map_nil, BitVec.toNat_ofNat, List.cons.injEq, and_true]
  omega

/-- Settles O46: the three cells hold the list of digits, and no digit is truncated. -/
theorem bcdDigitsAreStored : Obligations.BcdDigitsAreStored := by
  intro x s hwf h
  have hend : s.base + (bcdDigits s.v[x.val]).length ≤ memorySize := Nat.succ_le_succ h
  have hread : ∀ k (hk : k < 3), ((s.storeAtI (bcdDigits s.v[x.val])).mem.read (s.base + k)).toNat =
      [s.v[x.val].toNat / 100, s.v[x.val].toNat / 10 % 10, s.v[x.val].toNat % 10][k] := fun k hk => by
    rw [State.storeAtI_read_inside hwf hend hk]
    exact (List.getElem_map BitVec.toNat).symm.trans (List.getElem_of_eq (bcdDigits_toNat s.v[x.val]) hk)
  exact ⟨_, exec_ldB_in_bounds h, hread 0 (by decide), hread 1 (by decide), hread 2 (by decide),
    fun _ ha _ hb => State.storeAtI_read_outside hwf hend (ha ▸ hb), rfl⟩

/-- Settles O47: V0..Vx are x + 1 bytes stored from I, the r-th of them Vr. -/
theorem registersAreStoredFromI : Obligations.RegistersAreStoredFromI := by
  intro x s hwf h
  have hlen : ((regsUpTo x).map s.reg).length = x.val + 1 := by rw [List.length_map, regsUpTo_length]
  have hend : s.base + ((regsUpTo x).map s.reg).length ≤ memorySize := hlen ▸ Nat.succ_le_succ h
  exact ⟨_, exec_ldMemVx_in_bounds h, fun _ hr => read_storeAtI_regs hwf h hr,
    fun _ ha _ hb => State.storeAtI_read_outside hwf hend (hlen ▸ ha ▸ hb), rfl⟩

/-! ## A load from I (R165) -/

/-- LD Vx, [I] in bounds loads V0..Vx (R165). -/
theorem exec_ldVxMem_in_bounds {x : Reg} {s : State} (h : s.i.toNat + x.val ≤ 0xFFF) :
    exec (.ldVxMem x) s = .next (s.loadFromI x) :=
  guarded_ok (checkBlock_ok (.inr h))

/-- Settles O48: the load sets the registers up to Vx, and keeps those above it. -/
theorem registersAreLoadedFromI : Obligations.RegistersAreLoadedFromI := by
  intro x s h
  obtain ⟨hframe, hget⟩ := s.loadFromI_spec x
  refine ⟨_, exec_ldVxMem_in_bounds h, fun r hr => ?loaded, fun r hr => ?kept, hframe⟩
  case loaded => rw [hget, if_pos hr, State.base_eq]
  case kept => rw [hget, if_neg (Fin.not_le.mpr hr)]

/-! ## The index register (R160, R161, R162) -/

/-- Settles O44: a 12-bit operand keeps its value in I. -/
theorem loadIndexImmediate : Obligations.LoadIndexImmediate :=
  fun nnn _ => ⟨decodeWord_of_encode_eq (i := .ldI nnn) rfl, _, rfl, addrWord_toNat nnn, rfl⟩

/-- A register's byte keeps its value when it is widened to 16 bits (R161). -/
theorem regWord_toNat (s : State) (x : Reg) : (regWord s x).toNat = s.v[x.val].toNat :=
  BitVec.toNat_setWidth_of_le (by decide)

/-- The largest glyph address, 5 * 0xFF, is below 2^16 (R162). -/
theorem glyphAddress_toNat (b : Byte) : (glyphAddress b).toNat = 5 * b.toNat := by
  have hb := b.isLt
  rw [glyphAddress, BitVec.toNat_ofNat]
  omega

/-- Settles O45: the sum is that of the 16-bit I and the widened Vx, and the glyph address does not wrap. -/
theorem addIndexAndGlyphAddress : Obligations.AddIndexAndGlyphAddress := by
  refine fun x s => ⟨⟨_, rfl, ?sum, rfl⟩, ⟨_, rfl, glyphAddress_toNat _, rfl⟩⟩
  case sum => rw [State.setI_i, BitVec.toNat_add, regWord_toNat]

end Sys2Proof.Machine
end

section
/-! PROOFS. The display (spec/44_display.md R180-R184): what DRW leaves, said once by the pixels that its sprite covers;
and the bodies that leave the display alone. -/

namespace Sys2Proof

/-- A format XYN word, with each field under its weight (spec/30_encoding.md R71). -/
theorem encodeXY_eq_weights (f : Nat) (x y : Reg) (n : Fin 16) :
    encodeXY f x y n = BitVec.ofNat 16 (f * 0x1000 + 0x100 * x.val + 0x10 * y.val + n.val) := by
  rw [encodeXY, Nat.mul_comm x.val, Nat.mul_comm y.val]

end Sys2Proof

namespace Sys2Proof.Machine

/-- Settles O50: the blank display has no pixel set. -/
theorem clsClearsEveryPixel : Obligations.ClsClearsEveryPixel :=
  ⟨decodeWord_encode .cls, fun _ => ⟨_, rfl, Display.pixel_blank, rfl⟩⟩

/-! ## What DRW leaves (R181-R183) -/

section Draw

variable {s : State} {x y : Reg} {n : Fin 16}

/-- DRW in bounds draws (R181). -/
theorem exec_drw_in_bounds (h : n.val = 0 ∨ s.i.toNat + n.val - 1 ≤ 0xFFF) :
    exec (.drw x y n) s = .next (s.draw x y n.val) :=
  guarded_ok (checkBlock_ok h)

/-- The pixels that a DRW plots are distinct: its sprite has at most 15 rows. -/
theorem nodup_sprite (s : State) (x y : Reg) (n : Fin 16) :
    (spritePixels (s.reg y).toNat (s.reg x).toNat (s.sprite n.val)).Nodup := by
  refine nodup_spritePixels ?_ _ _
  rw [State.sprite, Memory.readBytes_length]
  omega

theorem State.draw_pixel_of_covers {p : Pixel} (h : SpriteCovers s x y n.val p) :
    (s.draw x y n.val).disp.pixel p = !s.disp.pixel p := by
  obtain ⟨hpixel, -⟩ := foldl_plot_spec (nodup_sprite s x y n) s.disp false
  exact (hpixel p).trans (if_pos ((mem_sprite_iff s x y n.val p).mpr h))

theorem State.draw_pixel_of_not_covers {p : Pixel} (h : ¬ SpriteCovers s x y n.val p) :
    (s.draw x y n.val).disp.pixel p = s.disp.pixel p := by
  obtain ⟨hpixel, -⟩ := foldl_plot_spec (nodup_sprite s x y n) s.disp false
  exact (hpixel p).trans (if_neg (mt (mem_sprite_iff s x y n.val p).mp h))

/-- The loop of R181 notes a collision when a covered pixel was set. -/
theorem drawSprite_collision_iff :
    (drawSprite s.disp (s.reg y).toNat (s.reg x).toNat (s.sprite n.val)).2 = true ↔
      ∃ p, SpriteCovers s x y n.val p ∧ s.disp.pixel p = true := by
  obtain ⟨-, hcollision⟩ := foldl_plot_spec (nodup_sprite s x y n) s.disp false
  rw [drawSprite, hcollision]
  simp only [Bool.false_eq_true, false_or, mem_sprite_iff]

theorem flagByte_eq_one_iff (b : Bool) : flagByte b = 0x01 ↔ b = true := by
  cases b <;> decide

theorem flagByte_eq_zero_iff (b : Bool) : flagByte b = 0x00 ↔ b = false := by
  cases b <;> decide

/-- VF is written last, with the collision (R181). -/
theorem State.draw_vf (s : State) (x y : Reg) (n : Nat) :
    (s.draw x y n).v[VF.val] =
      flagByte (drawSprite s.disp (s.reg y).toNat (s.reg x).toNat (s.sprite n)).2 :=
  State.setReg_get_self _ VF _

theorem State.draw_vf_eq_one_iff :
    (s.draw x y n.val).v[VF.val] = 0x01 ↔ ∃ p, SpriteCovers s x y n.val p ∧ s.disp.pixel p = true := by
  rw [State.draw_vf, flagByte_eq_one_iff, drawSprite_collision_iff]

theorem State.draw_vf_eq_zero_iff :
    (s.draw x y n.val).v[VF.val] = 0x00 ↔ ∀ p, SpriteCovers s x y n.val p → s.disp.pixel p = false := by
  rw [State.draw_vf, flagByte_eq_zero_iff, ← Bool.not_eq_true, drawSprite_collision_iff]
  simp only [not_exists, not_and, Bool.not_eq_true]

/-- Which pixels a sprite covers depends on MEM, I and the two coordinates alone. -/
theorem SpriteCovers.congr {u : State} (hmem : u.mem = s.mem) (hi : u.i = s.i) (hx : u.v[x.val] = s.v[x.val])
    (hy : u.v[y.val] = s.v[y.val]) (n : Nat) (p : Pixel) : SpriteCovers u x y n p ↔ SpriteCovers s x y n p := by
  unfold SpriteCovers
  rw [hmem, hi, hx, hy]

end Draw

/-- Settles O51: the word is its format's, and the clauses on the next state are the lemmas on `State.draw`. -/
theorem drwXorsThePixelsTheSpriteCovers : Obligations.DrwXorsThePixelsTheSpriteCovers := by
  refine fun x y n s =>
    ⟨decodeWord_of_encode_eq (i := .drw x y n) (encodeXY_eq_weights 0xD x y n), fun h => ?inBounds, fun hn h => ?fault⟩
  case inBounds =>
    exact ⟨_, exec_drw_in_bounds h, fun _ => State.draw_pixel_of_covers, fun _ => State.draw_pixel_of_not_covers,
      State.draw_vf_eq_one_iff.mpr, State.draw_vf_eq_zero_iff.mpr, fun _ => State.setReg_get_of_ne _ _, rfl⟩
  case fault =>
    have hbad : ¬ (n.val = 0 ∨ s.base + n.val - 1 ≤ 0xFFF) := by
      rw [State.base_eq]
      omega
    exact guarded_error (checkBlock_error hbad)

/-- Settles O52: both draws cover the same pixels, and a covered pixel is flipped twice. -/
theorem drawingTwiceRestoresTheDisplay : Obligations.DrawingTwiceRestoresTheDisplay := by
  refine fun x y n s h => ⟨_, exec_drw_in_bounds h, fun u hdisp hmem hi hx hy => ?_⟩
  have hcovers := SpriteCovers.congr hmem hi hx hy n.val
  refine ⟨_, exec_drw_in_bounds (hi ▸ h), Display.ext_pixel fun p => ?restored, ?vf⟩
  case restored =>
    by_cases hp : SpriteCovers s x y n.val p
    · rw [State.draw_pixel_of_covers ((hcovers p).mpr hp), hdisp, State.draw_pixel_of_covers hp, Bool.not_not]
    · rw [State.draw_pixel_of_not_covers (mt (hcovers p).mp hp), hdisp, State.draw_pixel_of_not_covers hp]
  case vf =>
    rw [State.draw_vf_eq_one_iff]
    refine exists_congr fun p => ?_
    rw [hcovers p]
    refine and_congr_right fun hp => ?_
    rw [hdisp, State.draw_pixel_of_covers hp, Bool.not_eq_true']

/-! ## Who writes the display (R184) -/

/-- An answer is a next state with the display of `s`. -/
def KeepsDisplay (s : State) (r : Result) : Prop := ∃ t, r = .next t ∧ t.disp = s.disp

section KeepsDisplay

variable (s : State)

/-- A guarded instruction keeps the display when its effect does: a fault writes no pixel (R96). -/
theorem guarded_keepsDisplay {i : Instr} {check : Except FaultCause Unit} {effect : State}
    (h : effect.disp = s.disp) : KeepsDisplay s (guarded i check s effect) := by
  cases check with
  | ok _ => exact ⟨_, rfl, h⟩
  | error _ => exact ⟨_, rfl, rfl⟩

theorem State.skipIf_disp (b : Bool) : (s.skipIf b).disp = s.disp := by
  rw [State.skipIf_eq]

theorem State.loadFromI_disp (x : Reg) : (s.loadFromI x).disp = s.disp := by
  obtain ⟨hframe, -⟩ := s.loadFromI_spec x
  rw [hframe]

theorem skipOnKey_keepsDisplay (i : Instr) (x : Reg) (whenDown : Bool) :
    KeepsDisplay s (skipOnKey i x whenDown s) := by
  unfold skipOnKey
  split
  · exact ⟨_, rfl, rfl⟩
  · exact ⟨_, rfl, s.skipIf_disp _⟩

theorem execLdVxK_keepsDisplay (x : Reg) : KeepsDisplay s (execLdVxK x s) := by
  unfold execLdVxK
  split <;> exact ⟨_, rfl, rfl⟩

theorem exec_ret_keepsDisplay : KeepsDisplay s (exec .ret s) := by
  rcases Nat.eq_zero_or_pos s.sp.val with h | h
  · exact ⟨_, exec_ret_empty h, rfl⟩
  · exact ⟨_, exec_ret_of_pos h, rfl⟩

theorem exec_call_keepsDisplay (nnn : Addr) : KeepsDisplay s (exec (.call nnn) s) := by
  by_cases h : s.sp.val < 16
  · exact ⟨_, exec_call_of_lt h nnn, rfl⟩
  · exact ⟨_, exec_call_full (by omega) nnn, rfl⟩

/-- Every body but those of CLS and DRW keeps the display (R184). -/
theorem exec_keepsDisplay {i : Instr} (hcls : i ≠ .cls) (hdrw : ∀ x y n, i ≠ .drw x y n) :
    KeepsDisplay s (exec i s) := by
  cases i with
  | cls => exact absurd rfl hcls
  | drw x y n => exact absurd rfl (hdrw x y n)
  | ret => exact exec_ret_keepsDisplay s
  | call nnn => exact exec_call_keepsDisplay s nnn
  | seByte | sneByte | seReg | sneReg => exact ⟨_, rfl, s.skipIf_disp _⟩
  | skp x | sknp x => exact skipOnKey_keepsDisplay s _ x _
  | ldVxK x => exact execLdVxK_keepsDisplay s x
  | ldB | ldMemVx => exact guarded_keepsDisplay s rfl
  | ldVxMem x => exact guarded_keepsDisplay s (s.loadFromI_disp x)
  | _ => exact ⟨_, rfl, rfl⟩

end KeepsDisplay

/-- A body that changes the display is that of CLS or of a DRW (R184). -/
theorem exec_disp_writers {i : Instr} {s t : State} (h : exec i s = .next t) (hne : t.disp ≠ s.disp) :
    i = .cls ∨ ∃ x y n, i = .drw x y n := by
  by_contra hother
  obtain ⟨hcls, hdrw⟩ := not_or.mp hother
  obtain ⟨u, hu, hdisp⟩ := exec_keepsDisplay s hcls fun x y n e => hdrw ⟨x, y, n, e⟩
  rw [h] at hu
  cases hu
  exact hne hdisp

/-- Settles O53: neither a fault nor the no-op of an UNKNOWN word writes the display, so a body did. -/
theorem onlyClsAndDrwChangeTheDisplay : Obligations.OnlyClsAndDrwChangeTheDisplay := by
  refine ⟨fun p s t h hne => ?step, fun s w => ⟨by rw [tick_frame], rfl⟩⟩
  case step =>
    cases hst : s.status with
    | halted f =>
      rw [engineStep_halted hst] at h
      cases h
      exact absurd rfl hne
    | running =>
      obtain ⟨cause, op, rfl⟩ | ⟨op, hf, rfl | ⟨i, hd, -⟩⟩ := engineStep_cases hst h
      · exact absurd rfl hne
      · exact absurd rfl hne
      · rw [engineStep_exec hst hf hd] at h
        refine ⟨op, hf, ?_⟩
        rw [hd]
        obtain rfl | ⟨x, y, n, rfl⟩ := exec_disp_writers h hne
        · exact .inl rfl
        · exact .inr ⟨x, y, n, rfl⟩

end Sys2Proof.Machine
end

section
/-! PROOFS. The key latch and the timers (spec/45_input_timers.md R190-R195): one lemma for each way that a skip on a
key and a wait for a key can go. -/

namespace Sys2Proof

/-- A format X word, with the register's field last under its weight (spec/30_encoding.md R71). -/
theorem encodeX_eq_weights (f : Nat) (x : Reg) (ss : Nat) :
    encodeX f x ss = BitVec.ofNat 16 (f * 0x1000 + ss + 0x100 * x.val) := by
  rw [encodeX, Nat.mul_comm x.val, Nat.add_right_comm]

end Sys2Proof

namespace Sys2Proof.Machine

/-! ## Skips on a key (R190, R191) -/

/-- A register that names a key skips when the key is in the wanted state. -/
theorem skipOnKey_of_eq {x : Reg} {s : State} {k : Fin 16} (h : s.v[x.val].toNat = k.val) (i : Instr)
    (whenDown : Bool) :
    skipOnKey i x whenDown s = .next { s with pc := if s.key[k.val] = whenDown then s.pc + 2 else s.pc } := by
  rw [skipOnKey, State.reg_eq, keyNumber_of_lt h]
  exact congrArg Host.Outcome.next (s.skipIf_of_iff beq_iff_eq)

/-- A register above 0x0F names no key (R215). -/
theorem skipOnKey_of_gt {x : Reg} {s : State} (h : s.v[x.val].toNat > 0x0F) (i : Instr) (whenDown : Bool) :
    skipOnKey i x whenDown s = .next (faulted i (.keyIndexOutOfRange s.v[x.val]) s) := by
  rw [skipOnKey, State.reg_eq, keyNumber_of_gt h]
  rfl

/-- Settles O54: each word is its format's, and SKP and SKNP are the skips on a pressed and on a released key. -/
theorem keySkipsReadTheLatch : Obligations.KeySkipsReadTheLatch := by
  refine ⟨fun _ => rfl, fun x s => ⟨?skpWord, ?sknpWord, fun k h => ?skips, fun h => ?faults⟩⟩
  case skpWord => exact decodeWord_of_encode_eq (i := .skp x) (encodeX_eq_weights 0xE x 0x9E)
  case sknpWord => exact decodeWord_of_encode_eq (i := .sknp x) (encodeX_eq_weights 0xE x 0xA1)
  case skips => exact ⟨skipOnKey_of_eq h (.skp x) true, skipOnKey_of_eq h (.sknp x) false⟩
  case faults => exact ⟨skipOnKey_of_gt h (.skp x) true, skipOnKey_of_gt h (.sknp x) false⟩

/-! ## The timers (R192, R194, R195) -/

/-- Settles O55: the load of DT writes one register, and the two others write one timer. -/
theorem timerInstructionsCopy : Obligations.TimerInstructionsCopy :=
  fun x s => ⟨⟨_, rfl, s.setReg_get_self x s.dt, fun _ => s.setReg_get_of_ne s.dt, rfl⟩, rfl, rfl⟩

/-! ## The wait for a key (R193) -/

/-- A key number fits a byte. -/
theorem keyByte_toNat (k : Fin 16) : (keyByte k).toNat = k.val := by
  rw [keyByte, BitVec.toNat_ofNat]
  omega

/-- LD Vx, K loads the number of the lowest pressed key. -/
theorem exec_ldVxK_of_lowest {s : State} {k : Fin 16} (hk : s.key[k.val] = true)
    (hlow : ∀ j : Fin 16, j < k → s.key[j.val] = false) (x : Reg) :
    exec (.ldVxK x) s = .next (s.setReg x (keyByte k)) := by
  change execLdVxK x s = _
  rw [execLdVxK, State.lowestKey_eq hk hlow]

/-- LD Vx, K with no key pressed moves PC back to itself. -/
theorem exec_ldVxK_of_none {s : State} (h : ∀ k : Fin 16, s.key[k.val] = false) (x : Reg) :
    exec (.ldVxK x) s = .next (s.setPc (s.pc - 2)) := by
  change execLdVxK x s = _
  rw [execLdVxK, State.lowestKey_none h]

/-- Settles O56: the lowest pressed key's number is the one register written, and a wait writes PC alone. -/
theorem keyWaitTakesTheLowestKey : Obligations.KeyWaitTakesTheLowestKey := by
  refine fun x s => ⟨fun k hk hlow => ?pressed, fun h => exec_ldVxK_of_none h x⟩
  case pressed =>
    refine ⟨_, exec_ldVxK_of_lowest hk hlow x, ?_, fun _ => s.setReg_get_of_ne _, rfl⟩
    rw [State.setReg_get_self, keyByte_toNat]

end Sys2Proof.Machine
end

section
/-! PROOFS. Faults, timers and the random input (spec/60_exceptions.md R211, R214, R225, R230). -/

namespace Sys2Proof.Machine

/-! ## Nested calls (R211) -/

/-- The rest of the bodies runs on the state that the first one answers. -/
theorem execAll_cons_of_next {i : Instr} {s t : State} (h : exec i s = .next t) (is : List Instr) :
    execAll (i :: is) s = execAll is t := by
  rw [execAll, h]

/-- A CALL below the capacity adds one entry and does not touch STATUS (spec/41_control_flow.md R112). -/
theorem exec_call_sp_status {s : State} (h : s.sp.val < 16) (nnn : Addr) :
    ∃ t, exec (.call nnn) s = .next t ∧ t.sp.val = s.sp.val + 1 ∧ t.status = s.status :=
  ⟨_, exec_call_of_lt h nnn, rfl, rfl⟩

/-- As many CALLs as the stack has room for add one entry each, and leave STATUS alone (R211). -/
theorem execAll_calls {targets : List Addr} {s : State} (h : s.sp.val + targets.length ≤ 16) :
    ∃ t, execAll (targets.map Instr.call) s = .next t ∧ t.sp.val = s.sp.val + targets.length ∧
      t.status = s.status := by
  induction targets generalizing s with
  | nil => exact ⟨s, rfl, rfl, rfl⟩
  | cons nnn targets ih =>
    rw [List.length_cons] at h ⊢
    obtain ⟨u, hu, husp, hustatus⟩ := exec_call_sp_status (s := s) (by omega) nnn
    obtain ⟨t, ht, htsp, htstatus⟩ := ih (s := u) (by omega)
    exact ⟨t, (execAll_cons_of_next hu _).trans ht, by omega, htstatus.trans hustatus⟩

/-- Settles O34: sixteen CALLs fill the empty stack, and a CALL on a full stack faults. -/
theorem sixteenCallsNestTheNextOverflows : Obligations.SixteenCallsNestTheNextOverflows := by
  refine ⟨rfl, fun targets last s hsp hlen => ?_⟩
  obtain ⟨t, ht, htop, hstatus⟩ := execAll_calls (targets := targets) (s := s) (by omega)
  have hfull : t.sp.val = 16 := by omega
  exact ⟨t, ht, hfull, hstatus, exec_call_full hfull last⟩

/-! ## Fetch faults and the tick (R214, R225) -/

/-- Settles O7: the fetch refuses the odd PC, and a fetch fault keeps PC and records no opcode. -/
theorem oddPcHaltsTheBlock : Obligations.OddPcHaltsTheBlock :=
  ⟨rfl, fun _ _ hrun hodd hp => engineStep_fetch_error hrun (fetch_misaligned hodd hp)⟩

/-- Settles O17: each timer's countdown is a truncated subtraction, and the end of a frame begins with the tick. -/
theorem tickCountsBothTimersDown : Obligations.TickCountsBothTimersDown := by
  refine fun s => ⟨fun hrun => ?running, fun _ => tick_halted, fun hrun _ => frame_running hrun⟩
  case running =>
    rw [tick_running hrun]
    exact ⟨_, rfl, countDown_toNat s.dt, countDown_toNat s.st, rfl⟩

/-! ## Who reads the random input (R230) -/

/-- The state with another count of draws (log entry 6). -/
def State.withDraws (s : State) (draws : Nat) : State := { s with draws := draws }

/-- A body that does not read the count of draws, and so no random byte: another count changes its answer in that count
alone. -/
def IgnoresDraws (body : State → Result) : Prop :=
  ∀ (s : State) (draws : Nat), ∃ t, body s = .next t ∧ body (s.withDraws draws) = .next (t.withDraws draws)

theorem IgnoresDraws.next_withDraws {body : State → Result} (hbody : IgnoresDraws body) {s t : State}
    (h : body s = .next t) (draws : Nat) : body (s.withDraws draws) = .next (t.withDraws draws) := by
  obtain ⟨u, hu, hdraws⟩ := hbody s draws
  cases hu.symm.trans h
  exact hdraws

/-- A body that ignores the count keeps it: its own count put into the state is no change, so it is none to the
answer. -/
theorem IgnoresDraws.draws_eq {body : State → Result} (hbody : IgnoresDraws body) {s t : State}
    (h : body s = .next t) : t.draws = s.draws := by
  have hsame : body s = .next (t.withDraws s.draws) := hbody.next_withDraws h s.draws
  have ht : t = t.withDraws s.draws := Host.Outcome.next.inj (h.symm.trans hsame)
  rw [ht]
  rfl

/-- A guarded instruction ignores the count when its check and its effect do: a fault keeps it (R96). -/
theorem guarded_ignoresDraws {i : Instr} {check : State → Except FaultCause Unit} {effect : State → State}
    (hcheck : ∀ s draws, check (s.withDraws draws) = check s)
    (heffect : ∀ s draws, effect (s.withDraws draws) = (effect s).withDraws draws) :
    IgnoresDraws fun s => guarded i (check s) s (effect s) := by
  intro s draws
  simp only [hcheck, heffect]
  cases check s with
  | ok _ => exact ⟨_, rfl, rfl⟩
  | error _ => exact ⟨_, rfl, rfl⟩

theorem State.skipIf_withDraws (s : State) (draws : Nat) (b : Bool) :
    (s.withDraws draws).skipIf b = (s.skipIf b).withDraws draws := by
  cases b <;> rfl

theorem State.loadFromI_withDraws (x : Reg) (s : State) (draws : Nat) :
    (s.withDraws draws).loadFromI x = (s.loadFromI x).withDraws draws :=
  List.foldl_hom (fun t : State => t.withDraws draws) fun _ _ => rfl

theorem skipOnKey_ignoresDraws (i : Instr) (x : Reg) (whenDown : Bool) : IgnoresDraws (skipOnKey i x whenDown) := by
  intro s draws
  by_cases hgt : s.v[x.val].toNat > 0x0F
  · exact ⟨_, skipOnKey_of_gt hgt i whenDown, skipOnKey_of_gt (s := s.withDraws draws) hgt i whenDown⟩
  · have hkey : s.v[x.val].toNat = (⟨s.v[x.val].toNat, by omega⟩ : Fin 16).val := rfl
    exact ⟨_, skipOnKey_of_eq hkey i whenDown, skipOnKey_of_eq (s := s.withDraws draws) hkey i whenDown⟩

theorem execLdVxK_ignoresDraws (x : Reg) : IgnoresDraws (execLdVxK x) := by
  intro s draws
  have hkey : (s.withDraws draws).lowestKey = s.lowestKey := rfl
  unfold execLdVxK
  rw [hkey]
  cases s.lowestKey with
  | none => exact ⟨_, rfl, rfl⟩
  | some k => exact ⟨_, rfl, rfl⟩

theorem exec_call_ignoresDraws (nnn : Addr) : IgnoresDraws (exec (.call nnn)) := by
  intro s draws
  by_cases h : s.sp.val < 16
  · exact ⟨_, exec_call_of_lt h nnn, exec_call_of_lt (s := s.withDraws draws) h nnn⟩
  · have hfull : s.sp.val = 16 := by omega
    exact ⟨_, exec_call_full hfull nnn, exec_call_full (s := s.withDraws draws) hfull nnn⟩

theorem exec_ret_ignoresDraws : IgnoresDraws (exec .ret) := by
  intro s draws
  rcases Nat.eq_zero_or_pos s.sp.val with h | h
  · exact ⟨_, exec_ret_empty h, exec_ret_empty (s := s.withDraws draws) h⟩
  · exact ⟨_, exec_ret_of_pos h, exec_ret_of_pos (s := s.withDraws draws) h⟩

/-- Every body but that of RND ignores the count of draws (R230). -/
theorem exec_ignoresDraws {i : Instr} (hrnd : ∀ x kk, i ≠ .rnd x kk) : IgnoresDraws (exec i) := by
  cases i with
  | rnd x kk => exact absurd rfl (hrnd x kk)
  | ret => exact exec_ret_ignoresDraws
  | call nnn => exact exec_call_ignoresDraws nnn
  | seByte | sneByte | seReg | sneReg =>
    exact fun s draws => ⟨_, rfl, congrArg Host.Outcome.next (s.skipIf_withDraws draws _)⟩
  | skp x | sknp x => exact skipOnKey_ignoresDraws _ x _
  | ldVxK x => exact execLdVxK_ignoresDraws x
  | drw | ldB | ldMemVx => exact guarded_ignoresDraws (fun _ _ => rfl) fun _ _ => rfl
  | ldVxMem x => exact guarded_ignoresDraws (fun _ _ => rfl) (State.loadFromI_withDraws x)
  | _ => exact fun _ _ => ⟨_, rfl, rfl⟩

/-- Settles O43: a body that ignores the count of draws answers alike under any other count, and keeps its own. -/
theorem onlyRndReadsTheRandomInput : Obligations.OnlyRndReadsTheRandomInput := by
  intro i s t draws hrnd h
  have hignores := exec_ignoresDraws hrnd
  exact ⟨hignores.draws_eq h, hignores.next_withDraws h draws⟩

end Sys2Proof.Machine
end

section
/-! PROOFS. Creation and the program load (spec/70_reset_and_hazards.md R250-R254): a run of bytes written over a
memory whose cells are known. -/

namespace Sys2Proof.Machine

/-! ## The font (R251, R252) -/

/-- The zero fill stays inside the space. -/
theorem zeroFill_wf : zeroFill.wf = true := Memory.wf_writeBytes rfl (by decide)

/-- After the zero fill every cell is 0x00: the font's cells are overwritten, and the others are so at reset (R251). -/
theorem zeroFill_read (a : Nat) : zeroFill.read a = 0x00 := by
  rw [zeroFill, Memory.read_writeBytes rfl (by decide)]
  split
  case isTrue h => exact List.getElem_replicate _
  case isFalse h =>
    rw [List.length_replicate, show fontset.length = 0x050 from rfl] at h
    exact resetByte_above_font (by omega)

section Font

variable (font : Vector Byte 80)

/-- FONTSET fits below the end of memory. -/
theorem font_length_le : 0 + font.toList.length ≤ memorySize := by
  rw [Vector.length_toList]
  decide

theorem create_mem_wf : (State.create font).mem.wf = true := Memory.wf_writeBytes zeroFill_wf (font_length_le font)

/-- The created memory is FONTSET below 0x050 and zero above (R252). -/
theorem create_mem_read (a : Nat) : (State.create font).mem.read a = if h : a < 80 then font[a] else 0x00 := by
  change (zeroFill.writeBytes 0 font.toList).read a = _
  rw [Memory.read_writeBytes zeroFill_wf (font_length_le font), zeroFill_read]
  simp

/-- With the default table the created memory reads as the reset memory does (R40, R252). -/
theorem create_mem_read_default (h : font.toList = fontset) (a : Nat) :
    (State.create font).mem.read a = State.reset.mem.read a := by
  change _ = resetByte a
  rw [create_mem_read, resetByte, ← h]
  split
  case isTrue ha => simp [ha]
  case isFalse => rfl

end Font

/-- Settles O26: the cells of the created memory, and, for the default table, equal cells make equal memories. -/
theorem fontIsLoadedByteForByte : Obligations.FontIsLoadedByteForByte := by
  refine ⟨create_mem_read, fun font h => ?_⟩
  have hmem : (State.create font).mem = State.reset.mem :=
    equalCellsMakeEqualMemories _ _ (create_mem_wf font) rfl fun a _ => create_mem_read_default font h a
  exact congrArg (fun m => { State.reset with mem := m }) hmem

/-- Settles O27: the reset memory lists no cell, so each glyph is read from the default table itself. -/
theorem defaultGlyphsStandAtFiveTimesTheDigit : Obligations.DefaultGlyphsStandAtFiveTimesTheDigit :=
  ⟨rfl, rfl, rfl, rfl, rfl, rfl, rfl, rfl, rfl, rfl, rfl, rfl, rfl, rfl, rfl, rfl⟩

/-! ## The program image (R253, R254) -/

/-- Settles O28: an image of the allowed size ends inside the space, where stored bytes read back. -/
theorem imageIsLoadedAt0x200 : Obligations.ImageIsLoadedAt0x200 := by
  intro s image hwf hlen
  have hfits : loadAddress + image.length ≤ memorySize := by simp only [loadAddress, memorySize]; omega
  have hread := Memory.read_writeBytes hwf hfits
  refine ⟨fun k hk => ?inside, fun a ha => ?outside, rfl, Memory.wf_writeBytes hwf hfits⟩
  case inside =>
    refine (hread (0x200 + k)).trans ((dif_pos ⟨Nat.le_add_right .., Nat.add_lt_add_left hk _⟩).trans ?_)
    simp [loadAddress]
  case outside =>
    refine (hread a).trans (dif_neg ?_)
    simp only [loadAddress]
    omega

/-- Settles O29: the one size check, after the check that there is a file. -/
theorem loadFailsExactlyWhenTooLarge : Obligations.LoadFailsExactlyWhenTooLarge :=
  fun _ => ⟨rfl, fun _ => ⟨fun h => if_pos h, fun h => ⟨_, if_neg (Nat.not_lt.mpr h), rfl, rfl, rfl⟩⟩⟩

end Sys2Proof.Machine
end

section
/-! PROOFS. What one frame leaves to the next (spec/70_reset_and_hazards.md R257-R262): the timers counted down and the
key writes applied, and otherwise the state after the engine's step. -/

namespace Sys2Proof.Machine

/-! ## The end of a frame (R257) -/

section EndFrame

variable (s : State)

@[simp] theorem endFrame_mem : (endFrame s).mem = s.mem := by rw [endFrame_frame]
@[simp] theorem endFrame_v : (endFrame s).v = s.v := by rw [endFrame_frame]
@[simp] theorem endFrame_pc : (endFrame s).pc = s.pc := by rw [endFrame_frame]
@[simp] theorem endFrame_disp : (endFrame s).disp = s.disp := by rw [endFrame_frame]
@[simp] theorem endFrame_status : (endFrame s).status = s.status := by rw [endFrame_frame]

variable {s}

/-- The frame's tick counts the timers of a running block down (R225). -/
theorem endFrame_timers (hrun : s.status = .running) :
    (endFrame s).dt.toNat = s.dt.toNat - 1 ∧ (endFrame s).st.toNat = s.st.toNat - 1 := by
  rw [endFrame_frame, tick_running hrun]
  exact ⟨countDown_toNat s.dt, countDown_toNat s.st⟩

end EndFrame

/-- A frame whose PC holds the word of `i` is the body of `i` and then the end of the frame (R90, R257). -/
theorem step_of_decode {s t : State} {i : Instr} (hrun : s.status = .running) (heven : s.pc.toNat % 2 = 0)
    (hpc : s.pc.toNat + 1 ≤ 0xFFF)
    (hdec : decodeWord (wordOfBytes (s.mem.read s.pc.toNat) (s.mem.read (s.pc.toNat + 1))) = some i)
    (hexec : exec i s.advance = .next t) : step s = .next (endFrame t) :=
  frame_running hrun ((engineStep_exec hrun (fetch_of_even heven hpc) hdec).trans hexec)

/-! ## The delay timer and the key wait (R260, R262) -/

/-- The frame of Fx15 leaves DT one less than Vx, with PC past the instruction (R194, R225). -/
theorem step_ldDtVx {s : State} {x : Reg} (hrun : s.status = .running) (heven : s.pc.toNat % 2 = 0)
    (hpc : s.pc.toNat + 1 ≤ 0xFFF)
    (hdec : decodeWord (wordOfBytes (s.mem.read s.pc.toNat) (s.mem.read (s.pc.toNat + 1))) = some (.ldDtVx x)) :
    ∃ t, step s = .next t ∧ t.status = .running ∧ t.mem = s.mem ∧ t.pc.toNat = s.pc.toNat + 2 ∧
      t.dt.toNat = s.v[x.val].toNat - 1 := by
  have hstep := step_of_decode hrun heven hpc hdec rfl
  obtain ⟨hdt, -⟩ := endFrame_timers (s := s.advance.setDt s.v[x.val]) hrun
  refine ⟨_, hstep, (endFrame_status _).trans hrun, endFrame_mem _, ?_, hdt⟩
  rw [endFrame_pc]
  exact State.advance_pc_toNat hpc

/-- Settles O18: Fx15's own frame ticks once before Fy07 reads DT. -/
theorem delayTimerReadsBackOneLess : Obligations.DelayTimerReadsBackOneLess := by
  intro s x y hrun heven hpc hfirst hsecond
  obtain ⟨t, ht, htrun, hmem, htpc, hdt⟩ := step_ldDtVx hrun heven (by omega) hfirst
  rw [← hmem, ← htpc, show s.pc.toNat + 3 = t.pc.toNat + 1 by omega] at hsecond
  refine ⟨t, _, ht, step_of_decode htrun (by omega) (by omega) hsecond rfl, ?_⟩
  rw [endFrame_v, State.setReg_get_self, State.advance_dt, hdt]

/-- Settles O57: the wait undoes the advance, and the end of the frame ticks the timers. -/
theorem keyWaitRepeatsWhileTimersTick : Obligations.KeyWaitRepeatsWhileTimersTick := by
  intro s x hrun heven hpc hdec hkeys
  have hexec := exec_ldVxK_of_none (s := s.advance) hkeys x
  have htimers := endFrame_timers (s := s.advance.setPc (s.advance.pc - 2)) hrun
  refine ⟨_, step_of_decode hrun heven hpc hdec hexec, ?_, endFrame_v _, endFrame_disp _, htimers⟩
  rw [endFrame_pc, State.setPc_pc, State.advance_pc, BitVec.add_sub_cancel]

/-! ## The key refresh (R257 item 3, R261) -/

section KeyWrites

variable {k : Fin 16} {s : State}

/-- A key that no write of the list names is as before (R37). -/
theorem foldl_keyWrite_of_not_named {ws : List KeyWrite} (h : ∀ w ∈ ws, w.key ≠ k) :
    (ws.foldl keyWrite s).key[k.val] = s.key[k.val] := by
  induction ws generalizing s with
  | nil => rfl
  | cons w ws ih =>
    obtain ⟨hw, hws⟩ := List.forall_mem_cons.mp h
    obtain ⟨-, hother, -⟩ := keyWriteSetsOneCell s w.key w.pressed
    exact (ih hws).trans (hother k hw.symm)

/-- The last write of the list to a key gives the key its value. -/
theorem foldl_keyWrite_of_last {before after : List KeyWrite} {w : KeyWrite} (h : ∀ u ∈ after, u.key ≠ w.key) :
    ((before ++ w :: after).foldl keyWrite s).key[w.key.val] = w.pressed := by
  rw [List.foldl_append, List.foldl_cons, foldl_keyWrite_of_not_named h]
  obtain ⟨hself, -, -⟩ := keyWriteSetsOneCell (before.foldl keyWrite s) w.key w.pressed
  exact hself

end KeyWrites

theorem tick_key (s : State) : (tick s).key = s.key := by rw [tick_frame]

theorem tick_keyInput (s : State) : (tick s).keyInput = s.keyInput := by rw [tick_frame]

/-- When the script has ended the key refresh does nothing (log entry 7). -/
theorem refreshKeys_of_nil {s : State} (h : s.keyInput = []) : refreshKeys s = s := by
  rw [refreshKeys, h]

/-- The key refresh makes the writes of the first list and drops it (R257). -/
theorem refreshKeys_of_cons {s : State} {writes : List KeyWrite} {later : List (List KeyWrite)}
    (h : s.keyInput = writes :: later) : refreshKeys s = { writes.foldl keyWrite s with keyInput := later } := by
  rw [refreshKeys, h]

/-- The step of SKP Vx, when Vx names key k, skips exactly when k is pressed (45_input_timers.md R190). -/
theorem engineStep_skp {p : Parameters} {s : State} {op : Word} {x : Reg} {k : Fin 16} (hrun : s.status = .running)
    (hf : fetch p s = .ok op) (hd : decodeWord op = some (.skp x)) (hk : s.v[x.val].toNat = k.val) :
    engineStep p s = .next { s with pc := if s.key[k.val] = true then s.pc + 2 + 2 else s.pc + 2 } :=
  (engineStep_exec hrun hf hd).trans (skipOnKey_of_eq (s := s.advance) hk (.skp x) true)

/-- Settles O60: neither the engine's step nor the tick writes the latch or the script, so the refresh at the frame's end
finds both as they were, and the next step reads the latch it leaves. -/
theorem keyRefreshAppliesTheWritesInOrder : Obligations.KeyRefreshAppliesTheWritesInOrder := by
  intro s t hrun h
  obtain ⟨u, hu, rfl⟩ := frame_next hrun h
  obtain ⟨hkey, hinput⟩ := engineNeverWritesTheKeyLatch _ _ _ hu
  rw [← tick_key u] at hkey
  rw [← tick_keyInput u] at hinput
  refine ⟨⟨u, hu, refreshKeys_frame (tick u)⟩, fun hnil => ?none, fun writes later hcons => ?some⟩
  case none =>
    rw [hnil] at hinput
    rw [endFrame, refreshKeys_of_nil hinput]
    exact ⟨hkey, hinput⟩
  case some =>
    rw [hcons] at hinput
    have hrefresh : endFrame u = _ := refreshKeys_of_cons hinput
    have hlatch : (endFrame u).key = (writes.foldl keyWrite (tick u)).key := by rw [hrefresh]
    refine ⟨by rw [hrefresh], fun k hk => ?_, fun before w after hsplit hlast => ?_⟩
    · rw [← hkey, hlatch]
      exact foldl_keyWrite_of_not_named hk
    · have hw : (endFrame u).key[w.key.val] = w.pressed := by
        rw [hlatch, hsplit]
        exact foldl_keyWrite_of_last hlast
      refine ⟨hw, fun op x hrun' hf hd hx => ?_⟩
      rw [engineStep_skp hrun' hf hd hx, hw]

end Sys2Proof.Machine
end
